-- ==== Sys2Proof/Word.lean ====
section
/-! DEFINITION. Sys2Proof/Word.lean: the widths the spec fixes. A command and a response are 32-bit
words (R60, R61); a symbol field of the command word, and a byte of a byte-wide link, has 8 bits (R60, R45). -/

namespace Sys2Proof

/-- A command word or a response word (R60, R61). -/
abbrev Word := BitVec 32

/-- A symbol field of the command word (R60), or one byte of a byte-wide link (R45). -/
abbrev Byte := BitVec 8

end Sys2Proof
end

