-- ==== Sys2Proof/Syntax.lean ====
section
/-! DEFINITION. Sys2Proof/Syntax.lean: the commands the core decodes (one constructor per row of
spec/opcode_table.json, R64), and what a response says (R61, R62). -/

namespace Sys2Proof

/-- A command (R64, R66). `illegal` keeps the word that decoded to no command, so that every command has
an encoding; its meaning does not look at the word (R201; notes/assumptions/13.md). -/
inductive Instr where
  | nop
  | feed (r0 r1 : Byte)
  | reset
  | illegal (w : Word)
deriving DecidableEq, Repr

/-- The error codes of the response field `ERR` (R62). The reserved code `0b11` is never produced, so it has
no constructor. -/
inductive ErrCode where
  | ok
  | invalidSymbol
  | illegalCommand
deriving DecidableEq, Repr, Inhabited

/-- What a response word says (R61). -/
structure Response where
  outValid : Bool
  outBit : Bool
  err : ErrCode
deriving DecidableEq, Repr

/-- The errors that a command's pseudocode raises (R18, R200). -/
inductive Raised where
  | invalidSymbol
  | illegalCommand
  | modelFault
deriving DecidableEq, Repr

end Sys2Proof
end

