-- ==== Sys2Proof/Config.lean ====
section
/-! DEFINITION. Sys2Proof/Config.lean: the parameters of an instance (R8 to R13, R22), the choice of them
that `State.reset` is built with, and the one value the spec leaves open. -/

namespace Sys2Proof

/-- `CFG`, the configuration of one instance (R22). The spec makes every parameter a model argument (D30), so
the configuration is data that a state holds, and statements range over all of them. -/
structure Cfg where
  /-- constraint length (R8) -/
  K : Nat
  /-- first generator polynomial; bit `i` taps the input `i` steps earlier (R9) -/
  G0 : Nat
  /-- second generator polynomial (R9) -/
  G1 : Nat
  /-- soft-symbol resolution in bits (R10) -/
  B : Nat
  /-- traceback depth, the number of survivor slots (R11) -/
  D : Nat
  /-- the sentinel path metric (R12) -/
  S : Nat
  /-- width of a hardware path-metric register (R13) -/
  PM_W : Nat
deriving DecidableEq, Repr

/-- The configuration `State.reset` is built with. DESIGN CHOICE (notes/assumptions/1.md): the spec leaves the
parameters to whoever builds the instance (D30); this is the configuration R80 gives as its example of a
valid one. -/
def Config.resetParameters : Cfg :=
  { K := 3, G0 := 0b111, G1 := 0b101, B := 4, D := 15, S := 61, PM_W := 7 }

/-- The `ERR` field of the response to a command that raises MODEL_FAULT, at the `n`-th response of the
instance. DESIGN CHOICE, a free value (notes/assumptions/5.md): R200 gives MODEL_FAULT no code, while R160 has
every command answer a response word. It has no body: nothing can be proved of its value. -/
opaque Config.modelFaultCode : Nat → ErrCode

end Sys2Proof
end

