-- ==== Sys2Proof/Machine/Trellis.lean ====
section
/-! DEFINITION. Sys2Proof/Machine/Trellis.lean: `trellis_state_controller`, part 1 (41_trellis_model.md): the
derived constants (R14), CONFIG_CHECK (R80), and the tables NEXT and OUT (R82 to R86). -/

namespace Sys2Proof

/-- The expected output pair of one transition (R20, R84). -/
structure Label where
  o0 : Bool
  o1 : Bool
deriving DecidableEq, Repr

/-- `TRELLIS`: the tables NEXT and OUT as flat arrays, the entry of state `s` and bit `b` at index `2*s + b`
(R25, R85). -/
structure Trellis where
  next : List Nat
  out : List Label
deriving DecidableEq, Repr

namespace Cfg

/-- The number of trellis states (R14, conflict C1). -/
def N (c : Cfg) : Nat := 2 ^ (c.K - 1)

/-- The largest legal soft symbol (R14). -/
def maxSym (c : Cfg) : Nat := 2 ^ c.B - 1

/-- The largest branch metric (R14). -/
def bmMax (c : Cfg) : Nat := 2 * c.maxSym

end Cfg

namespace Machine

/-- The number of bits of `n` up to its highest set bit; 0 for 0. -/
def bitLength (n : Nat) : Nat := if n = 0 then 0 else Nat.log2 n + 1

/-- `PM_W_MIN`, the least width of a path-metric register (R13, R14). -/
def pmWidthMin (c : Cfg) : Nat := bitLength (c.S + (c.K - 1) * c.bmMax)

/-- `WP_W = ceil(log2 D)`, the width of the write cursor (R14). -/
def cursorWidth (c : Cfg) : Nat := bitLength (c.D - 1)

/-- The default sentinel (R12). -/
def defaultSentinel (c : Cfg) : Nat := (c.K - 1) * c.bmMax + 1

/-- CONFIG_CHECK, the predicate `valid` of R80. -/
def configValid (c : Cfg) : Bool :=
  decide (2 ≤ c.K) && decide (c.G0 < 2 ^ c.K) && decide (c.G1 < 2 ^ c.K) &&
  decide (1 ≤ c.B) && decide (c.B ≤ 8) && decide (1 ≤ c.D) &&
  decide ((c.K - 1) * 2 * (2 ^ c.B - 1) < c.S) &&
  decide (bitLength (c.S + (c.K - 1) * 2 * (2 ^ c.B - 1)) ≤ c.PM_W)

/-- The encoder's register value of a state and an input bit (R82). -/
def reg (s : Nat) (b : Bool) : Nat := (s <<< 1) ||| b.toNat

/-- The parity of the lowest `n` bits of `x` (R15). The callers' `x` has no bit above them. -/
def parity : Nat → Nat → Bool
  | 0, _ => false
  | n + 1, x => xor (x % 2 == 1) (parity n (x / 2))

/-- TRELLIS_NEXT (R83). -/
def nextState (c : Cfg) (s : Nat) (b : Bool) : Nat := reg s b % c.N

/-- TRELLIS_OUT (R84). The register value of a state has `K` bits, so `K` bits are all that a generator can
tap. -/
def outLabel (c : Cfg) (s : Nat) (b : Bool) : Label :=
  { o0 := parity c.K (c.G0 &&& reg s b), o1 := parity c.K (c.G1 &&& reg s b) }

/-- The place of (state, bit) in a flat table (R85). -/
def tableIndex (s : Nat) (b : Bool) : Nat := 2 * s + b.toNat

/-- Builds TRELLIS, once, when the instance is built (R80, R85). -/
def buildTrellis (c : Cfg) : Trellis :=
  { next := (List.range (2 * c.N)).map fun i => nextState c (i / 2) (i % 2 == 1)
    out := (List.range (2 * c.N)).map fun i => outLabel c (i / 2) (i % 2 == 1) }

/-- The bit of every transition into `d` (R86, R87). -/
def inputBit (d : Nat) : Bool := d % 2 == 1

/-- The lower predecessor of `d` (R86). -/
def plo (d : Nat) : Nat := d >>> 1

/-- The upper predecessor of `d` (R86). -/
def phi (c : Cfg) (d : Nat) : Nat := (d >>> 1) ||| 2 ^ (c.K - 2)

end Machine

end Sys2Proof
end

