-- ==== Sys2Proof/Machine/BranchMetric.lean ====
section
/-! DEFINITION. Sys2Proof/Machine/BranchMetric.lean: `branch_metric_unit` (42_branch_metric_unit.md). -/

namespace Sys2Proof.Machine

/-- The distance of a symbol from an expected hard value, over the integers (R15, R100). -/
def symbolDistance (c : Cfg) (r : Nat) (o : Bool) : Nat := ((r : Int) - (o.toNat * c.maxSym : Nat)).natAbs

/-- BM (R100). -/
def branchMetric (c : Cfg) (r0 r1 : Nat) (l : Label) : Nat :=
  symbolDistance c r0 l.o0 + symbolDistance c r1 l.o1

/-- BMV, the branch metric of every transition, from the labels that TRELLIS holds (R103). -/
def bmVector (c : Cfg) (t : Trellis) (r0 r1 : Nat) : List Nat := t.out.map (branchMetric c r0 r1)

/-- BMV[s][b]. -/
def bmRead (bmv : List Nat) (s : Nat) (b : Bool) : Nat := bmv.getD (tableIndex s b) 0

end Sys2Proof.Machine
end

