-- ==== Sys2Proof/Machine/Flags.lean ====
section
/-! DEFINITION. Sys2Proof/Machine/Flags.lean: the three flags of a command, which are the fields of its response
word (R32, R61, R62, R162, R201). No flag persists. -/

namespace Sys2Proof.Machine

/-- The bits of an error code (R62). -/
def errBits : ErrCode → BitVec 2
  | .ok => 0b00#2
  | .invalidSymbol => 0b01#2
  | .illegalCommand => 0b10#2

/-- The response word (R61): OUT_VALID is bit 0, OUT_BIT bit 1, ERR bits [3:2], the rest zero. -/
def responseWord (r : Response) : Word :=
  (0#28 ++ errBits r.err ++ BitVec.ofBool r.outBit ++ BitVec.ofBool r.outValid).cast rfl

/-- The fields of a response word (R61). -/
def outValidOf (w : Word) : Bool := w.getLsbD 0
def outBitOf (w : Word) : Bool := w.getLsbD 1
def errOf (w : Word) : BitVec 2 := w.extractLsb' 2 2

/-- The response of a command that completes: `none` is "no output", `some b` a decoded bit (R162, R167). -/
def okResponse : Option Bool → Response
  | none => { outValid := false, outBit := false, err := .ok }
  | some b => { outValid := true, outBit := b, err := .ok }

/-- The response of a command that raises an error: nothing but its code (R61, R201). -/
def errorResponse (code : ErrCode) : Response :=
  { outValid := false, outBit := false, err := code }

/-- The code of a raised error (R200). MODEL_FAULT has none, so the field is the free value of the response
number `n` (notes/assumptions/5.md). -/
def raisedCode (n : Nat) : Raised → ErrCode
  | .invalidSymbol => .invalidSymbol
  | .illegalCommand => .illegalCommand
  | .modelFault => Config.modelFaultCode n

end Sys2Proof.Machine
end

