-- ==== Sys2Proof/Machine/Operands.lean ====
section
/-! DEFINITION. Sys2Proof/Machine/Operands.lean: FEED's two operands (R63) and their range check (R101). No
other command has an operand. -/

namespace Sys2Proof.Machine

/-- A symbol operand: its field, zero-extended, not scaled and not clamped (R63). -/
def symbolOperand (field : Byte) : Nat := field.toNat

/-- One symbol is legal: at most MAXSYM (R101). -/
def symbolInRange (c : Cfg) (field : Byte) : Bool := decide (symbolOperand field ≤ c.maxSym)

/-- FEED's symbol range check (R101). -/
def symbolsInRange (c : Cfg) (r0 r1 : Byte) : Bool := symbolInRange c r0 && symbolInRange c r1

end Sys2Proof.Machine
end

