-- ==== Sys2Proof/Machine/ResetValues.lean ====
section
/-! DEFINITION. Sys2Proof/Machine/ResetValues.lean: the type of the survivor memory (R26) and the reset values
of PM and SM (R37), which construction and the RESET command share (R220). -/

namespace Sys2Proof.Machine

/-- A survivor: the winning predecessor of a state, and the input bit of the transition (R26). -/
structure Survivor where
  pred : Nat
  bit : Bool
deriving DecidableEq, Repr

/-- One entry of the survivor memory; `none` is the spec's bottom, an entry that no FEED has written since the
last reset (R18, R26). -/
abbrev Entry := Option Survivor

/-- `SM`: a slot for each cycle of the ring, an entry for each state in a slot (R26). -/
abbrev Memory := List (List Entry)

/-- PM after reset: 0 for state 0, the sentinel for every other state (R37). -/
def resetPM (c : Cfg) : List Nat := 0 :: List.replicate (c.N - 1) c.S

/-- SM after reset: every entry bottom (R37). -/
def resetSM (c : Cfg) : Memory := List.replicate c.D (List.replicate c.N none)

end Sys2Proof.Machine
end

