-- ==== Sys2Proof/Machine/State.lean ====
section
/-! DEFINITION. Sys2Proof/Machine/State.lean: the state of one instance (R21), the reasons a step can stop, and
the state right after the instance is built (R37, R220). -/

namespace Sys2Proof.Machine

/-- The state of one instance: the tuple of R21, and the model's two ends of the host interface, `input` and
`output`, which the spec calls the step's input and output (notes/assumptions/2.md, 3.md). -/
structure State where
  /-- CFG (R22) -/
  cfg : Cfg
  /-- TRELLIS (R25) -/
  trellis : Trellis
  /-- PM, one path metric per trellis state (R23) -/
  pm : List Nat
  /-- SM, the survivor memory (R26) -/
  sm : Memory
  /-- WPTR, the write cursor (R27) -/
  wptr : Nat
  /-- PCNT, the priming count (R28) -/
  pcnt : Nat
  /-- MODEL_FAULT, the sticky model mark (R35) -/
  modelFault : Bool
  /-- the command words the host has still to present, oldest first (the model's own field) -/
  input : List Word
  /-- the response words returned so far, oldest first (the model's own field) -/
  output : List Word
deriving DecidableEq, Repr

/-- Why a step stops. The core itself never stops (R160, R231): both are for data that is no state of an
instance. -/
inductive Fault where
  /-- Raised by `step` in a state whose configuration fails CONFIG_CHECK: no instance exists, so no step does
  (R202, I17; notes/assumptions/8.md). Safe: the model stops where no hardware exists. -/
  | invalidCodeConfig
  /-- Raised by FEED where OUT of TRELLIS, PM or SM is not of its full size or WPTR is not below D, which R41 rules
  out for every instance (notes/assumptions/6.md). Safe: the model stops instead of inventing an entry's value. -/
  | indexOutOfRange
deriving DecidableEq, Repr

/-- Why an instruction has no meaning. No arm of `exec` is refused in this model. -/
inductive Refusal where
  /-- Raised by `exec` for an instruction without a meaning yet, named by its mnemonic. Safe. -/
  | notModelled (mnemonic : String)
deriving DecidableEq, Repr

/-- The state of an instance of configuration `c` right after it is built (R37, R221). -/
def builtState (c : Cfg) : State :=
  { cfg := c
    trellis := buildTrellis c
    pm := resetPM c
    sm := resetSM c
    wptr := 0
    pcnt := 0
    modelFault := false
    input := []
    output := [] }

/-- The machine right after reset. The values are R37's; the configuration is a DESIGN CHOICE
(notes/assumptions/1.md). -/
def State.reset : State := builtState Config.resetParameters

end Sys2Proof.Machine
end

