-- ==== Sys2Proof/Machine/Ops.lean ====
section
/-! DEFINITION. Sys2Proof/Machine/Ops.lean: the named operations over the state that the commands share:
reading and writing PM and SM (R17, R42 to R44), moving the cursor and the priming count (R27, R28), returning
a response (R160), and raising an error (R18, R201), which is all that this core has of exceptions (R208,
R209: no entry, no return). -/

namespace Sys2Proof.Machine

/-! ## Survivor memory -/

/-- SMRead(j, s) (R17, R43). An entry outside the memory has been written by no FEED, so it reads as bottom;
no run forms such an index (R41; notes/assumptions/7.md). -/
def smRead (sm : Memory) (j s : Nat) : Entry := (sm.getD j []).getD s none

/-- RECORD's write: all entries of slot `j` at once (R42, R140). -/
def smRecord (sm : Memory) (j : Nat) (row : List Survivor) : Memory := sm.set j (row.map some)

/-- The memory has the shape of R26: `D` slots of `N` entries. It is the canonical form of SM: two memories
with the same entries are the same data. -/
def smWf (c : Cfg) (sm : Memory) : Bool :=
  decide (sm.length = c.D) && sm.all fun slot => decide (slot.length = c.N)

/-! ## Path metrics -/

/-- PM[s] (R17, R23). FEED runs only where PM has the entry (`State.shaped`). -/
def pmRead (pm : List Nat) (s : Nat) : Nat := pm.getD s 0

/-! ## Shape -/

/-- OUT, PM and SM are of their full size and WPTR names a slot (R40, R41). NEXT is not among them: the closed
forms of R120 stand for it. -/
def State.shaped (s : State) : Bool :=
  decide (s.trellis.out.length = 2 * s.cfg.N) &&
  decide (s.pm.length = s.cfg.N) && smWf s.cfg s.sm && decide (s.wptr < s.cfg.D)

/-! ## Sequencing -/

/-- The slot before slot `j` on the ring (R141). -/
def prevSlot (depth j : Nat) : Nat := (j + depth - 1) % depth

/-- WPTR after a FEED (R27, R161). -/
def nextCursor (depth wptr : Nat) : Nat := (wptr + 1) % depth

/-- PCNT after a FEED (R28, R161). -/
def nextCount (depth pcnt : Nat) : Nat := min (pcnt + 1) depth

/-! ## Responses and errors -/

/-- Returns the response of the command (R160). -/
def State.respond (s : State) (r : Response) : State := { s with output := s.output ++ [responseWord r] }

/-- `raise E` (R18, R201): the command ends, writes nothing, and answers the code of `E`. MODEL_FAULT sets its
sticky mark besides (R35, R217). The next command starts from this state (R209). -/
def State.raise (s : State) (e : Raised) : State :=
  { s with modelFault := s.modelFault || e == Raised.modelFault }.respond
    (errorResponse (raisedCode s.output.length e))

end Sys2Proof.Machine
end

