-- ==== Sys2Proof/Machine/Acs.lean ====
section
/-! DEFINITION. Sys2Proof/Machine/Acs.lean: `viterbi_decoder_acs_engine`, the path metric recursion
(43_acs_engine.md). -/

namespace Sys2Proof.Machine

/-- What Select keeps for one destination: an entry of NEWPM and an entry of SURV (R120). -/
structure Selected where
  metric : Nat
  survivor : Survivor
deriving DecidableEq, Repr

/-- Accumulate: the candidate of destination `d` through predecessor `p` (R120). -/
def candidate (pm bmv : List Nat) (p d : Nat) : Nat := pmRead pm p + bmRead bmv p (inputBit d)

/-- Select: the lower candidate of destination `d`, the lower predecessor on a tie (R120, R121). -/
def select (c : Cfg) (pm bmv : List Nat) (d : Nat) : Selected :=
  let c0 := candidate pm bmv (plo d) d
  let c1 := candidate pm bmv (phi c d) d
  if c0 ≤ c1 then { metric := c0, survivor := { pred := plo d, bit := inputBit d } }
  else { metric := c1, survivor := { pred := phi c d, bit := inputBit d } }

/-- ACS_STEP: every destination from the same PM (R120, R122). -/
def acsStep (c : Cfg) (pm bmv : List Nat) : List Selected := (List.range c.N).map (select c pm bmv)

/-- NEWPM (R120). -/
def newMetrics (sel : List Selected) : List Nat := sel.map Selected.metric

/-- SURV (R120). -/
def survivors (sel : List Selected) : List Survivor := sel.map Selected.survivor

/-- `min V` (R16); 0 for the empty vector, which no instance has. -/
def minMetric : List Nat → Nat
  | [] => 0
  | [x] => x
  | x :: y :: rest => min x (minMetric (y :: rest))

/-- `argmin_low(V)` (R16): the least index of the least element. -/
def argminLow (v : List Nat) : Nat := v.idxOf (minMetric v)

/-- Normalization: the global minimum is subtracted from every entry (R123). -/
def normalize (v : List Nat) : List Nat := v.map fun x => x - minMetric v

end Sys2Proof.Machine
end

