-- ==== Sys2Proof/Machine/Survivors.lean ====
section
/-! DEFINITION. Sys2Proof/Machine/Survivors.lean: `survivor_memory_traceback`
(44_survivor_memory_traceback.md). RECORD's write is `smRecord` of Machine/Ops.lean. -/

namespace Sys2Proof.Machine

/-- The walk of TRACEBACK (R141) with `n + 1` steps left: read the entry of the slot before `j` at state `s`,
then go on from its predecessor; the bit of the last entry read is the result. `none` when an entry read is
bottom. -/
def walkBack (depth : Nat) (sm : Memory) : Nat → Nat → Nat → Option Bool
  | 0, j, s =>
    match smRead sm (prevSlot depth j) s with
    | none => none
    | some e => some e.bit
  | n + 1, j, s =>
    match smRead sm (prevSlot depth j) s with
    | none => none
    | some e => walkBack depth sm n (prevSlot depth j) e.pred

/-- TRACEBACK (R141): `D` steps from the lowest state of least metric, from the state at the start of the
FEED (R142). `none` where it raises MODEL_FAULT. -/
def traceback (s : State) : Option Bool :=
  walkBack s.cfg.D s.sm (s.cfg.D - 1) s.wptr (argminLow s.pm)

/-- FEED's result (R143, R161): "no output" while priming, TRACEBACK's bit when primed. The outer `none` is
where TRACEBACK raises MODEL_FAULT. -/
def feedOutput (s : State) : Option (Option Bool) :=
  if s.pcnt = s.cfg.D then
    match traceback s with
    | none => none
    | some b => some (some b)
  else some none

end Sys2Proof.Machine
end

