-- ==== Sys2Proof/Machine/Commands.lean ====
section
/-! DEFINITION. Sys2Proof/Machine/Commands.lean: `trellis_state_controller`, part 2 (45_commands.md): the
construction of an instance (R80, R221), and one meaning per command (R161 to R166). -/

namespace Sys2Proof.Machine

/-- Why no instance is built (R80, R202). -/
inductive BuildError where
  | invalidCodeConfig
deriving DecidableEq, Repr

/-- Construction (R80, R221): CONFIG_CHECK, then the tables and the reset state. -/
def buildInstance (c : Cfg) : Except BuildError State :=
  if configValid c then .ok (builtState c) else .error .invalidCodeConfig

/-- The selections of a FEED, all from the state at its start (R103, R120). -/
def feedSelections (s : State) (r0 r1 : Nat) : List Selected :=
  acsStep s.cfg s.pm (bmVector s.cfg s.trellis r0 r1)

/-- What a FEED writes when it completes: PM, SM, WPTR and PCNT, all at its end (R161). -/
def feedWrites (s : State) (r0 r1 : Nat) : State :=
  { s with
    pm := normalize (newMetrics (feedSelections s r0 r1))
    sm := smRecord s.sm s.wptr (survivors (feedSelections s r0 r1))
    wptr := nextCursor s.cfg.D s.wptr
    pcnt := nextCount s.cfg.D s.pcnt }

/-- A FEED that has passed the symbol check (R161). -/
def feedCycle (s : State) (r0 r1 : Nat) : State :=
  match feedOutput s with
  | none => s.raise .modelFault
  | some out => (feedWrites s r0 r1).respond (okResponse out)

/-- FEED (R161): the symbol check first (R101, R203), then one decode cycle. -/
def execFeed (r0 r1 : Byte) (s : State) : Host.Outcome State Fault Refusal :=
  if symbolsInRange s.cfg r0 r1 then
    if s.shaped then .next (feedCycle s (symbolOperand r0) (symbolOperand r1))
    else .fault .indexOutOfRange
  else .next (s.raise .invalidSymbol)

/-- The reset state, CFG, TRELLIS and MODEL_FAULT kept (R37, R164). -/
def resetWrites (s : State) : State :=
  { s with pm := resetPM s.cfg, sm := resetSM s.cfg, wptr := 0, pcnt := 0 }

/-- RESET (R164). -/
def execReset (s : State) : Host.Outcome State Fault Refusal :=
  .next ((resetWrites s).respond (okResponse none))

/-- NOP (R165). -/
def execNop (s : State) : Host.Outcome State Fault Refusal := .next (s.respond (okResponse none))

/-- ILLEGAL (R166): raises ILLEGAL_COMMAND, whatever the word (R201). -/
def execIllegal (_w : Word) (s : State) : Host.Outcome State Fault Refusal :=
  .next (s.raise .illegalCommand)

end Sys2Proof.Machine
end

