-- ==== Sys2Proof/Machine/Dispatch.lean ====
section
/-! DEFINITION. Sys2Proof/Machine/Dispatch.lean: one arm per command (R160). -/

namespace Sys2Proof.Machine

/-- The meaning of a decoded command (R160). -/
def exec (i : Instr) (s : State) : Host.Outcome State Fault Refusal :=
  match i with
  | .nop => Sys2Proof.Machine.execNop s
  | .feed r0 r1 => Sys2Proof.Machine.execFeed r0 r1 s
  | .reset => Sys2Proof.Machine.execReset s
  | .illegal w => Sys2Proof.Machine.execIllegal w s

end Sys2Proof.Machine
end

