-- ==== Sys2Proof/WellFormed.lean ====
section
/-! DEFINITION. Sys2Proof/WellFormed.lean: which terms of `Instr` stand for a command word (R65). NOP, RESET
and FEED do with every operand, since a symbol field holds any 8-bit value (R63); `illegal w` does when `w`
matches none of the three legal patterns. -/

namespace Sys2Proof

/-- The match and mask patterns of R65, as spec/opcode_table.json lists them. -/
def matchesLegalPattern (w : Word) : Bool :=
  w &&& 0xFFFFFFFF#32 == 0x00000000#32 || w &&& 0xFF0000FF#32 == 0x00000001#32 ||
    w &&& 0xFFFFFFFF#32 == 0x00000002#32

/-- The term stands for a word that decodes to it. -/
def Instr.wellFormed : Instr → Bool
  | .nop => true
  | .feed _ _ => true
  | .reset => true
  | .illegal w => !matchesLegalPattern w

/-- `Instr.wellFormed` as a proposition. -/
abbrev WellFormed (i : Instr) : Prop := i.wellFormed = true

end Sys2Proof
end

