-- ==== Sys2Proof/Decode.lean ====
section
/-! DEFINITION. Sys2Proof/Decode.lean: the command word's fields (R60), decoding (R66, total on 32-bit words),
the byte order of serialized words (R45), and the encoder written from the same tables (R60, R64). -/

namespace Sys2Proof

/-! ## Fields (R60) -/

def opc (w : Word) : BitVec 4 := w.extractLsb' 0 4
def rsv0 (w : Word) : BitVec 4 := w.extractLsb' 4 4
def sym0 (w : Word) : Byte := w.extractLsb' 8 8
def sym1 (w : Word) : Byte := w.extractLsb' 16 8
def rsv1 (w : Word) : Byte := w.extractLsb' 24 8

/-! ## Decoding a word (R66) -/

/-- The decode function of R66. Every word decodes to exactly one command. -/
def decode (w : Word) : Instr :=
  if w = 0x00000000#32 then .nop
  else if w &&& 0xFF0000FF#32 = 0x00000001#32 then .feed (sym0 w) (sym1 w)
  else if w = 0x00000002#32 then .reset
  else .illegal w

/-! ## Encoding (R60, R64) -/

/-- A command word from its operation code and symbol fields, reserved fields zero (R60). -/
def packCommand (op : BitVec 4) (s0 s1 : Byte) : Word :=
  (0#8 ++ s1 ++ s0 ++ 0#4 ++ op).cast rfl

/-- The word of a command (R64). -/
def encode : Instr → Word
  | .nop => packCommand 0x0#4 0#8 0#8
  | .feed r0 r1 => packCommand 0x1#4 r0 r1
  | .reset => packCommand 0x2#4 0#8 0#8
  | .illegal w => w

/-! ## Words over a byte-wide link (R45) -/

/-- Why a byte stream gives no command: the spec has one format of four bytes (R68), so the only reason is
that fewer than four bytes are left (notes/assumptions/15.md). -/
inductive DecodeReject where
  | truncated
deriving DecidableEq, Repr

/-- Byte 0 holds bits [7:0], byte 3 bits [31:24] (R45). -/
def bytesOfWord (w : Word) : List Byte :=
  [w.extractLsb' 0 8, w.extractLsb' 8 8, w.extractLsb' 16 8, w.extractLsb' 24 8]

/-- The word that four bytes carry, in the order of R45. -/
def wordOfBytes (b0 b1 b2 b3 : Byte) : Word := (b3 ++ b2 ++ b1 ++ b0).cast rfl

/-- Decodes the first command of a byte stream and gives the rest of the stream. -/
def decodeBytes : List Byte → Except DecodeReject (Instr × List Byte)
  | b0 :: b1 :: b2 :: b3 :: rest => .ok (decode (wordOfBytes b0 b1 b2 b3), rest)
  | _ => .error .truncated

/-- The command the decoder reads from the word `w` of a table row of `nbits` bits; the bits above `nbits` are
zero. There is one length, 32 bits (R68), so a longer row has no command. -/
def decodeTableWord (nbits w : Nat) : Option Instr :=
  if nbits ≤ 32 then
    match decodeBytes (bytesOfWord (BitVec.ofNat 32 (w % 2 ^ nbits))) with
    | .ok (i, _) => some i
    | .error _ => none
  else none

end Sys2Proof
end

