-- ==== Sys2Proof/Machine/Present.lean ====
section
/-! DEFINITION. Sys2Proof/Machine/Present.lean: how the host's next command word reaches the core (R160, R170),
which is this core's fetch: it has no program counter and fetches from no memory (R31, R53). -/

namespace Sys2Proof.Machine

/-- Commands are accepted once an instance exists, that is when its configuration passes CONFIG_CHECK (I16,
I17; notes/assumptions/8.md). -/
def acceptsCommands (s : State) : Bool := configValid s.cfg

/-- The word the host presents now, and the state once it is presented. `none` when the host presents
nothing. -/
def presented (s : State) : Option (Word × State) :=
  match s.input with
  | [] => none
  | w :: rest => some (w, { s with input := rest })

/-- The host presents `w` before the words it has still to present. -/
def present (w : Word) (s : State) : State := { s with input := w :: s.input }

/-- The word of a table row of `nbits` bits, the bits above `nbits` zero. -/
def tableWord (nbits w : Nat) : Word := BitVec.ofNat 32 (w % 2 ^ nbits)

end Sys2Proof.Machine
end

