-- ==== Sys2Proof/Machine/Step.lean ====
section
/-! DEFINITION. Sys2Proof/Machine/Step.lean: one step (R160): the command word that the host presents is decoded
and performed. -/

namespace Sys2Proof.Machine

/-- One step. Where the host presents no word, the core holds its state and does nothing (R216;
notes/assumptions/4.md). -/
def step (s : State) : Host.Outcome State Fault Refusal :=
  if acceptsCommands s then
    match presented s with
    | none => .next s
    | some (w, s') => exec (decode w) s'
  else .fault .invalidCodeConfig

/-- `s` with the word of a table row presented next (notes/assumptions/12.md). -/
def State.withFetchWord (s : State) (nbits w : Nat) : State := present (tableWord nbits w) s

end Sys2Proof.Machine
end

