-- ==== Sys2Proof/Machine/Encoder.lean ====
section
/-! DEFINITION. Sys2Proof/Machine/Encoder.lean: the companion encoder of the test vectors (R89). It is outside
the core (R6); statements about decoding use it as their reference. -/

namespace Sys2Proof.Machine

/-- The state after the input bits, from state `s` (R83, R89). -/
def encoderState (c : Cfg) : Nat → List Bool → Nat
  | s, [] => s
  | s, b :: bs => encoderState c (nextState c s b) bs

/-- The pairs sent for the input bits, from state `s` (R89). -/
def encodeFrom (c : Cfg) : Nat → List Bool → List Label
  | _, [] => []
  | s, b :: bs => outLabel c s b :: encodeFrom c (nextState c s b) bs

/-- The companion encoder, from state 0 (R89). -/
def encodeBits (c : Cfg) (bits : List Bool) : List Label := encodeFrom c 0 bits

/-- A hard value as a symbol of the ideal channel (R72, R89). -/
def hardSymbol (c : Cfg) (h : Bool) : Nat := h.toNat * c.maxSym

end Sys2Proof.Machine
end

