-- ==== Sys2Proof/Machine/Assembler.lean ====
section
/-! DEFINITION. Sys2Proof/Machine/Assembler.lean: the assembler syntax (R70) and the pseudo-instructions FEEDCH
(R71) and FEEDH (R72). A line is a list of characters. FEEDH's expansion depends on the instance's `B`. -/

namespace Sys2Proof.Machine

/-- The base-32 soft-symbol alphabet (R71): digits to 0 to 9, letters a to v to 10 to 31. -/
def symbolOfChar (ch : Char) : Option Nat :=
  let n := ch.toNat
  if 48 ≤ n ∧ n ≤ 57 then some (n - 48)
  else if 97 ≤ n ∧ n ≤ 118 then some (n - 87)
  else none

/-- FEEDCH c0, c1 (R71). -/
def expandFeedch (c0 c1 : Char) : Option Instr :=
  match symbolOfChar c0, symbolOfChar c1 with
  | some v0, some v1 => some (.feed (BitVec.ofNat 8 v0) (BitVec.ofNat 8 v1))
  | _, _ => none

/-- FEEDH h0, h1 (R72). -/
def expandFeedh (c : Cfg) (h0 h1 : Bool) : Instr :=
  .feed (BitVec.ofNat 8 (hardSymbol c h0)) (BitVec.ofNat 8 (hardSymbol c h1))

/-- What one line assembles to. -/
inductive AsmLine where
  | blank
  | command (i : Instr)
  | error
deriving DecidableEq, Repr

/-- A comment runs from `;` to the end of the line (R70). -/
def stripComment : List Char → List Char
  | [] => []
  | ch :: rest => if ch = ';' then [] else ch :: stripComment rest

/-- Puts a character in front of the first token. -/
def consToken (ch : Char) : List (List Char) → List (List Char)
  | [] => [[ch]]
  | t :: ts => (ch :: t) :: ts

/-- Splits a line into its tokens: white space separates, a comma is a token of its own
(notes/assumptions/14.md). The head of the list is the token being read, perhaps empty. -/
def splitTokens : List Char → List (List Char)
  | [] => [[]]
  | ch :: rest =>
    if ch.toNat ≤ 0x20 then [] :: splitTokens rest
    else if ch = ',' then [] :: [ch] :: splitTokens rest
    else consToken ch (splitTokens rest)

/-- The tokens of a line, its comment left out. -/
def tokens (line : List Char) : List (List Char) := (splitTokens (stripComment line)).filter fun t => !t.isEmpty

/-- Mnemonics are case-insensitive (R70). -/
def upperChar (ch : Char) : Char :=
  if 97 ≤ ch.toNat ∧ ch.toNat ≤ 122 then Char.ofNat (ch.toNat - 32) else ch

/-- The value of a digit in base 10 or 16. -/
def digitValue (base : Nat) (ch : Char) : Option Nat :=
  let n := ch.toNat
  let v := if 48 ≤ n ∧ n ≤ 57 then n - 48
    else if 97 ≤ n ∧ n ≤ 102 then n - 87
    else if 65 ≤ n ∧ n ≤ 70 then n - 55
    else base
  if v < base then some v else none

/-- The value of a string of digits, after the digits that gave `acc`. -/
def digitsValue (base : Nat) : Nat → List Char → Option Nat
  | acc, [] => some acc
  | acc, ch :: rest =>
    match digitValue base ch with
    | some v => digitsValue base (acc * base + v) rest
    | none => none

/-- A decimal or `0x` hexadecimal integer (R70). -/
def numberValue : List Char → Option Nat
  | [] => none
  | '0' :: 'x' :: ds => if ds.isEmpty then none else digitsValue 16 0 ds
  | ds => digitsValue 10 0 ds

/-- An operand of FEED: an integer in [0, 255]; another one is an assembly error (R70). -/
def byteOperand (t : List Char) : Option Byte :=
  match numberValue t with
  | some n => if n ≤ 255 then some (BitVec.ofNat 8 n) else none
  | none => none

/-- A hard value of FEEDH (R72): the single character `0` or `1`. R72 gives the values and not their spelling, so
that no other spelling (`01`, `0x1`) assembles is a DESIGN CHOICE (notes/assumptions/14.md). -/
def hardOperand : List Char → Option Bool
  | ['0'] => some false
  | ['1'] => some true
  | _ => none

/-- The command of a mnemonic with two operands (R70 to R72). -/
def assembleTwo (c : Cfg) (m a b : List Char) : Option Instr :=
  if m = ['F', 'E', 'E', 'D'] then
    match byteOperand a, byteOperand b with
    | some r0, some r1 => some (.feed r0 r1)
    | _, _ => none
  else if m = ['F', 'E', 'E', 'D', 'C', 'H'] then
    match a, b with
    | [c0], [c1] => expandFeedch c0 c1
    | _, _ => none
  else if m = ['F', 'E', 'E', 'D', 'H'] then
    match hardOperand a, hardOperand b with
    | some h0, some h1 => some (expandFeedh c h0 h1)
    | _, _ => none
  else none

/-- The command of a mnemonic with no operand (R70). -/
def assembleNone (m : List Char) : Option Instr :=
  if m = ['N', 'O', 'P'] then some .nop
  else if m = ['R', 'E', 'S', 'E', 'T'] then some .reset
  else none

/-- The result of a line that holds a command. -/
def lineOf : Option Instr → AsmLine
  | some i => .command i
  | none => .error

/-- One line of an assembler source (R70), for an instance of configuration `c`. -/
def assembleLine (c : Cfg) (line : List Char) : AsmLine :=
  match tokens line with
  | [] => .blank
  | [m] => lineOf (assembleNone (m.map upperChar))
  | [m, a, [','], b] => lineOf (assembleTwo c (m.map upperChar) a b)
  | _ => .error

end Sys2Proof.Machine
end

