-- ==== Sys2Proof/Safety.lean ====
section
/-! DEFINITION. Sys2Proof/Safety.lean: runs of the core and what makes one good (R174), the invariant that every
step keeps, and the notions of the spec's theorems about runs: cycles since reset (R19), path metrics over
input sequences (R125), the unbounded survivor history that the ring stands for (R54, R144). -/

namespace Sys2Proof.Machine

/-! ## Runs -/

/-- The run of a finite sequence of commands, presented one at a time, each after the response of the one before
(R49, R174, R225). -/
def runCommands : State → List Word → Host.Outcome State Fault Refusal
  | s, [] => .next s
  | s, w :: ws =>
    match step (present w s) with
    | .next t => runCommands t ws
    | .fault f => .fault f
    | .refused r => .refused r

/-- A run that has led to `s` is good (R174): MODEL_FAULT is clear, and no response carries an error but those
whose places (counted from 0) the host expects one at. -/
def goodRun (expected : List Nat) (s : State) : Bool :=
  !s.modelFault && s.output.zipIdx.all fun r => errOf r.1 == 0b00#2 || expected.contains r.2

/-- The cycle index `t` (R19) after the words, if it was `n` before them: RESET puts it back to 0, a FEED that
passes the symbol check adds 1, nothing else changes it (R163). -/
def cyclesFrom (c : Cfg) : Nat → List Word → Nat
  | n, [] => n
  | n, w :: ws =>
    match decode w with
    | .reset => cyclesFrom c 0 ws
    | .feed r0 r1 => cyclesFrom c (if symbolsInRange c r0 r1 then n + 1 else n) ws
    | .nop => cyclesFrom c n ws
    | .illegal _ => cyclesFrom c n ws

/-- The FEED words of a list of symbol pairs. -/
def feedWords (rs : List (Byte × Byte)) : List Word := rs.map fun r => encode (.feed r.1 r.2)

/-- Every pair passes the symbol check (R101). -/
def legalPairs (c : Cfg) (rs : List (Byte × Byte)) : Bool := rs.all fun r => symbolsInRange c r.1 r.2

/-! ## The invariant -/

/-- What holds of an instance between any two commands. -/
structure State.Inv (s : State) : Prop where
  /-- the configuration passed CONFIG_CHECK (R80) -/
  config : configValid s.cfg = true
  /-- TRELLIS is as it was built (R25, R85) -/
  tables : s.trellis = buildTrellis s.cfg
  /-- PM has one register per state (R23) -/
  metrics : s.pm.length = s.cfg.N
  /-- the least path metric is 0 (R124) -/
  normalized : minMetric s.pm = 0
  /-- SM has `D` slots of `N` entries (R26) -/
  memory : smWf s.cfg s.sm = true
  /-- WPTR lies in [0, D) (R27) -/
  cursor : s.wptr < s.cfg.D
  /-- PCNT lies in [0, D] (R28) -/
  count : s.pcnt ≤ s.cfg.D
  /-- while priming, both count the same FEEDs (R28) -/
  priming : s.pcnt < s.cfg.D → s.wptr = s.pcnt
  /-- which entries are written (R29) -/
  fill : ∀ j < s.cfg.D, ∀ d < s.cfg.N,
    ((smRead s.sm j d).isSome = true ↔ s.pcnt = s.cfg.D ∨ j < s.pcnt)
  /-- what a written entry of state `d` holds (R148) -/
  entries : ∀ j < s.cfg.D, ∀ d < s.cfg.N, ∀ e ∈ smRead s.sm j d,
    e.bit = inputBit d ∧ (e.pred = plo d ∨ e.pred = phi s.cfg d)
  /-- MODEL_FAULT is clear (R35, R145) -/
  noFault : s.modelFault = false

/-! ## Path metrics -/

/-- The total branch metric of an input sequence for the received pairs, from trellis state `p` (R125). -/
def pathMetric (c : Cfg) : Nat → List Bool → List (Byte × Byte) → Nat
  | p, b :: bs, r :: rs =>
    branchMetric c (symbolOperand r.1) (symbolOperand r.2) (outLabel c p b) + pathMetric c (nextState c p b) bs rs
  | _, _, _ => 0

/-- Trellis state `d` is reachable from state 0 in `t` steps (R125). -/
def reachableAt (c : Cfg) (t d : Nat) : Prop := d < c.N ∧ (t < c.K - 1 → d < 2 ^ t)

/-- The normalization offset `m` of one FEED (R123). -/
def feedOffset (s : State) (r : Byte × Byte) : Nat :=
  minMetric (newMetrics (feedSelections s (symbolOperand r.1) (symbolOperand r.2)))

/-- The sum of the normalization offsets of the FEEDs of a run from `s` (R125). -/
def totalOffset : State → List (Byte × Byte) → Nat
  | _, [] => 0
  | s, r :: rs => feedOffset s r + totalOffset (feedCycle s (symbolOperand r.1) (symbolOperand r.2)) rs

/-! ## The unbounded survivor history -/

/-- A traceback over a history of survivor rows, newest first, with `n + 1` steps left. -/
def historyWalk : Nat → List (List Survivor) → Nat → Option Bool
  | _, [], _ => none
  | 0, row :: _, d =>
    match row[d]? with
    | none => none
    | some e => some e.bit
  | n + 1, row :: rows, d =>
    match row[d]? with
    | none => none
    | some e => historyWalk n rows e.pred

/-- The results of a decoder that never overwrites a survivor row: each FEED traces back `D` generations once
there are `D` of them (R144, R146). -/
def historyOutputs (c : Cfg) : List Nat → List (List Survivor) → List (Byte × Byte) → List (Option Bool)
  | _, _, [] => []
  | pm, rows, r :: rs =>
    (if c.D ≤ rows.length then historyWalk (c.D - 1) rows (argminLow pm) else none) ::
      historyOutputs c
        (normalize (newMetrics (acsStep c pm
          (bmVector c (buildTrellis c) (symbolOperand r.1) (symbolOperand r.2)))))
        (survivors (acsStep c pm
          (bmVector c (buildTrellis c) (symbolOperand r.1) (symbolOperand r.2))) :: rows)
        rs

end Sys2Proof.Machine
end

