-- ==== Sys2Proof/Certificates/Slice0/Obligations.lean ====
section
/-! DEFINITION. Sys2Proof/Certificates/Slice0/Obligations.lean: the statements for the provers, in the order of
spec/. Each docstring names the rule it formalises. Statements about the machine range over every
configuration; none rests on the choice of `Config.resetParameters` but the one about `State.reset`. -/

open Sys2Proof Sys2Proof.Machine

/-! ## Words the statements use, written from the spec's formulas -/

namespace Sys2Proof.Claims

/-- The number of 1 bits of `x` below `2^k`, modulo 2, is 1 (R15). -/
def oddParity (k x : Nat) : Bool := (List.range k).countP (fun i => x.testBit i) % 2 == 1

/-- The register value of R82. -/
def register (s : Nat) (b : Bool) : Nat := 2 * s + b.toNat

/-- The label of R84. -/
def expectedLabel (c : Cfg) (s : Nat) (b : Bool) : Label :=
  ⟨oddParity c.K (c.G0 &&& register s b), oddParity c.K (c.G1 &&& register s b)⟩

/-- The distance of one symbol in the form of R102: `r` from a hard 0, `MAXSYM - r` from a hard 1. -/
def hardDistance (c : Cfg) (r : Nat) (o : Bool) : Nat := if o then 2 ^ c.B - 1 - r else r

/-- The lower and the upper predecessor of R86. -/
def lowPred (d : Nat) : Nat := d / 2
def highPred (c : Cfg) (d : Nat) : Nat := d / 2 + 2 ^ (c.K - 2)

/-- The bit of every transition into `d` (R86). -/
def bitInto (d : Nat) : Bool := d % 2 == 1

/-- The candidate of R120 for destination `d` through predecessor `p`, in a state and for a symbol pair. -/
def pathCandidate (s : State) (r0 r1 : Byte) (p d : Nat) : Nat :=
  s.pm.getD p 0 + hardDistance s.cfg r0.toNat (expectedLabel s.cfg p (bitInto d)).o0 +
    hardDistance s.cfg r1.toNat (expectedLabel s.cfg p (bitInto d)).o1

/-- NEWPM[d] of R120. -/
def selectedMetric (s : State) (r0 r1 : Byte) (d : Nat) : Nat :=
  min (pathCandidate s r0 r1 (lowPred d) d) (pathCandidate s r0 r1 (highPred s.cfg d) d)

/-- SURV[d] of R120, the lower predecessor on a tie (R121). -/
def selectedSurvivor (s : State) (r0 r1 : Byte) (d : Nat) : Survivor :=
  ⟨if pathCandidate s r0 r1 (lowPred d) d ≤ pathCandidate s r0 r1 (highPred s.cfg d) d then lowPred d
    else highPred s.cfg d, bitInto d⟩

/-- What a FEED that completes makes of every piece of state but the response (R161): PM, the recorded slot and
every other slot, the cursor, the count, and all that it leaves alone. -/
structure FeedEffect (s : State) (r0 r1 : Byte) (t : State) : Prop where
  metrics : t.pm.length = s.cfg.N ∧
    ∃ m, (∃ d < s.cfg.N, selectedMetric s r0 r1 d = m) ∧ (∀ d < s.cfg.N, m ≤ selectedMetric s r0 r1 d) ∧
      ∀ d < s.cfg.N, t.pm[d]? = some (selectedMetric s r0 r1 d - m)
  recorded : ∀ d < s.cfg.N, smRead t.sm s.wptr d = some (selectedSurvivor s r0 r1 d)
  otherSlots : ∀ j d, j ≠ s.wptr → smRead t.sm j d = smRead s.sm j d
  shape : t.sm.length = s.sm.length
  cursor : t.wptr = (s.wptr + 1) % s.cfg.D
  count : t.pcnt = min (s.pcnt + 1) s.cfg.D
  cfg : t.cfg = s.cfg
  trellis : t.trellis = s.trellis
  modelFault : t.modelFault = s.modelFault
  input : t.input = s.input

/-- The slot that the step number `k` (from 0) of a traceback reads: WPTR - 1 - k, modulo D (R141). -/
def tracedSlot (s : State) (k : Nat) : Nat := (s.wptr + s.cfg.D - 1 - k) % s.cfg.D

/-- `d` is the lowest state of least path metric (R16, R141). -/
def LowestMinimum (s : State) (d : Nat) : Prop :=
  d < s.pm.length ∧ (∀ i < s.pm.length, s.pm.getD d 0 ≤ s.pm.getD i 0) ∧ ∀ i < d, s.pm.getD d 0 < s.pm.getD i 0

/-- The traceback of R141 follows `path` for `D` steps and returns `b`, the bit of the last entry it reads. -/
def TracesTo (s : State) (path : Nat → Nat) (b : Bool) : Prop :=
  LowestMinimum s (path 0) ∧
    ∀ k < s.cfg.D, ∃ e, smRead s.sm (tracedSlot s k) (path k) = some e ∧ path (k + 1) = e.pred ∧
      (k + 1 = s.cfg.D → b = e.bit)

/-- The traceback of R141 reads a bottom entry. -/
def TracesIntoBottom (s : State) : Prop :=
  ∃ (path : Nat → Nat) (n : Nat), n < s.cfg.D ∧ LowestMinimum s (path 0) ∧
    (∀ k < n, ∃ e, smRead s.sm (tracedSlot s k) (path k) = some e ∧ path (k + 1) = e.pred) ∧
    smRead s.sm (tracedSlot s n) (path n) = none

/-- The response word that R162 gives a FEED's result. -/
def resultWord : Option Bool → Word
  | none => 0x00000000#32
  | some false => 0x00000001#32
  | some true => 0x00000003#32

end Sys2Proof.Claims

open Sys2Proof.Claims

/-! ## Encoding -/

/-- No bit of an encoding is dropped: decoding the word of a well-formed command gives it back, with every
operand (R60, R64, R66). -/
def Obligations.DecodeOfEncodeIsTheCommand : Prop :=
  ∀ i : Instr, WellFormed i → decode (encode i) = i

/-- The other direction: every word is the encoding of the command it decodes to, and that command is well
formed (R66: every word decodes to exactly one result). -/
def Obligations.EncodeOfDecodeIsTheWord : Prop :=
  ∀ w : Word, encode (decode w) = w ∧ WellFormed (decode w)

/-- R65: which words are legal, by fields and by match and mask. -/
def Obligations.LegalWordsAreThoseOfTheFieldConditions : Prop :=
  ∀ w : Word,
    ((∀ v, decode w ≠ .illegal v) ↔
      (opc w = 0x0#4 ∨ opc w = 0x1#4 ∨ opc w = 0x2#4) ∧ rsv0 w = 0#4 ∧ rsv1 w = 0#8 ∧
        (opc w ≠ 0x1#4 → sym0 w = 0#8 ∧ sym1 w = 0#8)) ∧
    (decode w = .nop ↔ w = 0x00000000#32) ∧
    (decode w = .reset ↔ w = 0x00000002#32) ∧
    ((∃ r0 r1, decode w = .feed r0 r1) ↔ w &&& 0xFF0000FF#32 = 0x00000001#32) ∧
    (decode w = .illegal w ↔
      w ≠ 0x00000000#32 ∧ w ≠ 0x00000002#32 ∧ w &&& 0xFF0000FF#32 ≠ 0x00000001#32)

/-- R63: FEED's operands are CMD[15:8] and CMD[23:16], zero-extended; every value in [0, 255] reaches FEED. -/
def Obligations.FeedOperandsAreTheZeroExtendedFields : Prop :=
  (∀ (w : Word) (r0 r1 : Byte), decode w = .feed r0 r1 →
    symbolOperand r0 = w.toNat / 2 ^ 8 % 2 ^ 8 ∧ symbolOperand r1 = w.toNat / 2 ^ 16 % 2 ^ 8) ∧
  ∀ v0 < 256, ∀ v1 < 256, ∃ r0 r1,
    decode (BitVec.ofNat 32 (1 + v0 * 2 ^ 8 + v1 * 2 ^ 16)) = .feed r0 r1 ∧
      symbolOperand r0 = v0 ∧ symbolOperand r1 = v1

/-- The encoding examples of R69, and words of 95_test_vectors.md C1 that are illegal. -/
def Obligations.WordsOfTheManualDecode : Prop :=
  decode 0x00000000#32 = .nop ∧ decode 0x00000002#32 = .reset ∧
  decode 0x00000001#32 = .feed 0#8 0#8 ∧ decode 0x000F0F01#32 = .feed 15#8 15#8 ∧
  decode 0x00000F01#32 = .feed 15#8 0#8 ∧ decode 0x000F0001#32 = .feed 0#8 15#8 ∧
  decode 0x000C0301#32 = .feed 3#8 12#8 ∧ decode 0x00FFFF01#32 = .feed 255#8 255#8 ∧
  decode 0x00000003#32 = .illegal 0x00000003#32 ∧ decode 0x00000011#32 = .illegal 0x00000011#32 ∧
  decode 0x00000102#32 = .illegal 0x00000102#32 ∧ decode 0x01000001#32 = .illegal 0x01000001#32

/-- R45: a word carried over a byte-wide link is little-endian, and the bytes of a word decode as the word. -/
def Obligations.SerializedWordsAreLittleEndian : Prop :=
  ∀ (w : Word) (rest : List Byte),
    (bytesOfWord w).length = 4 ∧
    (∀ i < 4, ∃ b, (bytesOfWord w)[i]? = some b ∧ b.toNat = w.toNat / 2 ^ (8 * i) % 2 ^ 8) ∧
    decodeBytes (bytesOfWord w ++ rest) = .ok (decode w, rest)

/-- R71 and R72: what the pseudo-instructions expand to. FEEDH's symbols lose no bit in the 8-bit fields of a
valid configuration. -/
def Obligations.PseudoInstructionsExpandToFeeds : Prop :=
  (∀ (ch : Char) (v : Nat), symbolOfChar ch = some v ↔
    ('0'.toNat ≤ ch.toNat ∧ ch.toNat ≤ '9'.toNat ∧ v + '0'.toNat = ch.toNat) ∨
    ('a'.toNat ≤ ch.toNat ∧ ch.toNat ≤ 'v'.toNat ∧ v + 'a'.toNat = ch.toNat + 10)) ∧
  (∀ (c0 c1 : Char) (i : Instr), expandFeedch c0 c1 = some i ↔
    ∃ r0 r1, i = .feed r0 r1 ∧ symbolOfChar c0 = some (symbolOperand r0) ∧
      symbolOfChar c1 = some (symbolOperand r1)) ∧
  ∀ (c : Cfg) (h0 h1 : Bool), configValid c = true →
    ∃ r0 r1, expandFeedh c h0 h1 = .feed r0 r1 ∧
      symbolOperand r0 = h0.toNat * (2 ^ c.B - 1) ∧ symbolOperand r1 = h1.toNat * (2 ^ c.B - 1)

/-- R70: a FEED line, in any case of its mnemonic, assembles to FEED of its two operands when both are at most
255, and is an error otherwise; the operands are decimal or `0x` hexadecimal integers; a comment changes
nothing. The white space of the line is log entry 14's. -/
def Obligations.AssemblerReadsFeedLines : Prop :=
  (∀ (c : Cfg) (m a b : List Char), m.map upperChar = ['F', 'E', 'E', 'D'] → a ≠ [] → b ≠ [] →
    (∀ ch ∈ a ++ b, 0x20 < ch.toNat ∧ ch ≠ ',' ∧ ch ≠ ';') →
    assembleLine c (m ++ ' ' :: a ++ ',' :: ' ' :: b) =
      match numberValue a, numberValue b with
      | some x, some y =>
        if x ≤ 255 ∧ y ≤ 255 then .command (.feed (BitVec.ofNat 8 x) (BitVec.ofNat 8 y)) else .error
      | _, _ => .error) ∧
  (∀ ds : List Nat, ds ≠ [] → (∀ d ∈ ds, d < 10) →
    numberValue (ds.map fun d => Char.ofNat (d + 48)) = some (Nat.ofDigits 10 ds.reverse)) ∧
  (∀ ds : List Nat, ds ≠ [] → (∀ d ∈ ds, d < 16) →
    numberValue ('0' :: 'x' :: ds.map fun d => Char.ofNat (if d < 10 then d + 48 else d + 87)) =
      some (Nat.ofDigits 16 ds.reverse)) ∧
  ∀ (c : Cfg) (line comment : List Char), assembleLine c (line ++ ';' :: comment) = assembleLine c line

/-- R70, R71 and R72: the lines of NOP and RESET, and those of FEEDCH and FEEDH, in any case of the mnemonic. An
operand of FEEDCH is one character of the alphabet; a line with any other operand is an error. That FEEDH takes the
single characters `0` and `1` and no other spelling of the hard values, and what white space separates, are the
model's choice, log entry 14. -/
def Obligations.AssemblerReadsTheOtherCommandLines : Prop :=
  (∀ (c : Cfg) (m : List Char), m.map upperChar = ['N', 'O', 'P'] → assembleLine c m = .command .nop) ∧
  (∀ (c : Cfg) (m : List Char), m.map upperChar = ['R', 'E', 'S', 'E', 'T'] →
    assembleLine c m = .command .reset) ∧
  (∀ (c : Cfg) (m a b : List Char), m.map upperChar = ['F', 'E', 'E', 'D', 'C', 'H'] → a ≠ [] → b ≠ [] →
    (∀ ch ∈ a ++ b, 0x20 < ch.toNat ∧ ch ≠ ',' ∧ ch ≠ ';') →
    (∀ c0 c1 v0 v1, a = [c0] → b = [c1] → symbolOfChar c0 = some v0 → symbolOfChar c1 = some v1 →
      assembleLine c (m ++ ' ' :: a ++ ',' :: ' ' :: b) =
        .command (.feed (BitVec.ofNat 8 v0) (BitVec.ofNat 8 v1))) ∧
    ((∀ c0 v0, a = [c0] → symbolOfChar c0 ≠ some v0) ∨ (∀ c1 v1, b = [c1] → symbolOfChar c1 ≠ some v1) →
      assembleLine c (m ++ ' ' :: a ++ ',' :: ' ' :: b) = .error)) ∧
  ∀ (c : Cfg) (m a b : List Char), m.map upperChar = ['F', 'E', 'E', 'D', 'H'] → a ≠ [] → b ≠ [] →
    (∀ ch ∈ a ++ b, 0x20 < ch.toNat ∧ ch ≠ ',' ∧ ch ≠ ';') →
    (∀ h0 h1 : Bool, a = [if h0 then '1' else '0'] → b = [if h1 then '1' else '0'] →
      assembleLine c (m ++ ' ' :: a ++ ',' :: ' ' :: b) =
        .command (.feed (BitVec.ofNat 8 (h0.toNat * (2 ^ c.B - 1))) (BitVec.ofNat 8 (h1.toNat * (2 ^ c.B - 1))))) ∧
    (a ∉ [['0'], ['1']] ∨ b ∉ [['0'], ['1']] →
      assembleLine c (m ++ ' ' :: a ++ ',' :: ' ' :: b) = .error)

/-! ## The step -/

/-- R160: a step performs the command that the presented word decodes to, in the state it is presented in. On
this core a step adds nothing but taking the word off the host's stream (the model's field `input`, log entry
2). -/
def Obligations.StepPerformsThePresentedCommand : Prop :=
  (∀ (s : State) (w : Word) (rest : List Word), configValid s.cfg = true → s.input = w :: rest →
    step s = exec (decode w) { s with input := rest }) ∧
  (∀ (s : State) (i : Instr), configValid s.cfg = true → WellFormed i →
    step (present (encode i) s) = exec i s) ∧
  ∀ (s : State) (nbits w : Nat) (i : Instr), configValid s.cfg = true → decodeTableWord nbits w = some i →
    step (s.withFetchWord nbits w) = exec i s

/-- The model's choice (log entry 4), from R216: where the host presents nothing the core holds its state. -/
def Obligations.StepWithoutCommandHoldsTheState : Prop :=
  ∀ s : State, configValid s.cfg = true → s.input = [] → step s = .next s

/-- R202 and I17: where the configuration fails CONFIG_CHECK there is no instance and no step (log entry 8). -/
def Obligations.NoStepWithoutAValidConfiguration : Prop :=
  ∀ s : State, configValid s.cfg = false → step s = .fault .invalidCodeConfig

/-- R160 and R231: every command completes, with one response, in every state that meets the invariant; R145:
MODEL_FAULT stays clear. -/
def Obligations.EveryPresentedCommandCompletes : Prop :=
  ∀ (s : State) (w : Word) (rest : List Word), s.Inv → s.input = w :: rest →
    ∃ t r, step s = .next t ∧ t.input = rest ∧ t.output = s.output ++ [r] ∧ t.modelFault = false

/-- R61 and R62: the form of every response word, whatever the command and the state. OUT_VALID is set by a
primed FEED alone (R143, R161; R164 to R166 for the other commands). The word of a FEED that raises MODEL_FAULT is
log entry 5's, with a free ERR code; what is said here holds for every value of it. -/
def Obligations.EveryResponseWordHasTheFieldsOfTheEncoding : Prop :=
  ∀ (i : Instr) (s t : State), exec i s = .next t →
    ∃ r : Word, t.output = s.output ++ [r] ∧ r.extractLsb' 4 28 = 0#28 ∧ errOf r ≠ 0b11#2 ∧
      (errOf r ≠ 0b00#2 → outValidOf r = false ∧ outBitOf r = false) ∧
      (outValidOf r = false → outBitOf r = false) ∧
      (outValidOf r = true → ∃ r0 r1, i = .feed r0 r1 ∧ s.pcnt = s.cfg.D)

/-! ## The configuration and the trellis -/

/-- R80: CONFIG_CHECK. The width condition `PM_W >= bitlength(x)` is stated as `x < 2^PM_W`. -/
def Obligations.InstancesAreBuiltExactlyForValidConfigurations : Prop :=
  ∀ c : Cfg,
    ((2 ≤ c.K ∧ c.G0 < 2 ^ c.K ∧ c.G1 < 2 ^ c.K ∧ 1 ≤ c.B ∧ c.B ≤ 8 ∧ 1 ≤ c.D ∧
        (c.K - 1) * 2 * (2 ^ c.B - 1) < c.S ∧ c.S + (c.K - 1) * 2 * (2 ^ c.B - 1) < 2 ^ c.PM_W) →
      buildInstance c = .ok (builtState c)) ∧
    (¬(2 ≤ c.K ∧ c.G0 < 2 ^ c.K ∧ c.G1 < 2 ^ c.K ∧ 1 ≤ c.B ∧ c.B ≤ 8 ∧ 1 ≤ c.D ∧
        (c.K - 1) * 2 * (2 ^ c.B - 1) < c.S ∧ c.S + (c.K - 1) * 2 * (2 ^ c.B - 1) < 2 ^ c.PM_W) →
      buildInstance c = .error .invalidCodeConfig)

/-- R81: a generator is refused exactly when it has a set bit at index K or above; the zero generator never
is. -/
def Obligations.GeneratorsOfDegreeKAreRefused : Prop :=
  ∀ c : Cfg, configValid c = true →
    (∀ g : Nat, (∃ i, c.K ≤ i ∧ g.testBit i = true) →
      configValid { c with G0 := g } = false ∧ configValid { c with G1 := g } = false) ∧
    (∀ g : Nat, (∀ i, c.K ≤ i → g.testBit i = false) →
      configValid { c with G0 := g } = true ∧ configValid { c with G1 := g } = true) ∧
    configValid { c with G0 := 0 } = true ∧ configValid { c with G1 := 0 } = true

/-- R83 and R84: the tables an instance is built with hold, for every state and bit, NEXT in both of R83's
forms and the parities of R84. -/
def Obligations.TrellisTablesHoldNextAndOut : Prop :=
  ∀ (c : Cfg) (s : Nat) (b : Bool), configValid c = true → s < c.N →
    (buildTrellis c).next.length = 2 * c.N ∧ (buildTrellis c).out.length = 2 * c.N ∧
    (buildTrellis c).next[2 * s + b.toNat]? = some (((s <<< 1) ||| b.toNat) % c.N) ∧
    ((s <<< 1) ||| b.toNat) % c.N = ((s <<< 1) ||| b.toNat) &&& (c.N - 1) ∧
    (buildTrellis c).out[2 * s + b.toNat]? = some
      ⟨oddParity c.K (c.G0 &&& ((s <<< 1) ||| b.toNat)), oddParity c.K (c.G1 &&& ((s <<< 1) ||| b.toNat))⟩ ∧
    ((s <<< 1) ||| b.toNat) < 2 ^ c.K

/-- R86: the predecessors of a state are exactly two, both under the bit `d & 1`, in the closed forms the ACS
engine uses. -/
def Obligations.EveryStateHasTheTwoPredecessors : Prop :=
  ∀ (c : Cfg) (d : Nat), configValid c = true → d < c.N →
    plo d < phi c d ∧ phi c d < c.N ∧ phi c d = plo d + 2 ^ (c.K - 2) ∧
    ∀ (s : Nat) (b : Bool), s < c.N →
      (nextState c s b = d ↔ b = inputBit d ∧ (s = plo d ∨ s = phi c d))

/-- R88: the branch from state 0 under input 0. R106: its metric for a noiseless all-zero pair. -/
def Obligations.AllZeroBranchReturnsToStateZero : Prop :=
  ∀ c : Cfg, configValid c = true →
    nextState c 0 false = 0 ∧ outLabel c 0 false = ⟨false, false⟩ ∧ branchMetric c 0 0 (outLabel c 0 false) = 0

/-! ## Rules of the whole machine -/

/-- R22, R25, R35: no command changes CFG or TRELLIS or clears MODEL_FAULT (nor does one touch what the host has
still to present). -/
def Obligations.NoCommandChangesConfigurationOrTrellis : Prop :=
  ∀ (i : Instr) (s t : State), exec i s = .next t →
    t.cfg = s.cfg ∧ t.trellis = s.trellis ∧ (s.modelFault = true → t.modelFault = true) ∧ t.input = s.input

/-- R23, R26, R27, R28: PM, SM, WPTR and PCNT are written by FEED (one that passes the symbol check) and RESET
alone. -/
def Obligations.OnlyFeedAndResetWriteStorage : Prop :=
  ∀ (i : Instr) (s t : State), exec i s = .next t →
    t.pm ≠ s.pm ∨ t.sm ≠ s.sm ∨ t.wptr ≠ s.wptr ∨ t.pcnt ≠ s.pcnt →
    i = .reset ∨ ∃ r0 r1, i = .feed r0 r1 ∧ r0.toNat < 2 ^ s.cfg.B ∧ r1.toNat < 2 ^ s.cfg.B

/-! ## The branch metric unit -/

/-- R100 and R102: for legal symbols BM is the sum of the two unsigned terms, at most BMMAX, which fits in B+1
bits; BMMAX is reached, and each symbol is strictly closer to one hard value. -/
def Obligations.BranchMetricIsTheSumOfUnsignedTerms : Prop :=
  ∀ (c : Cfg) (r0 r1 : Nat) (l : Label), r0 ≤ c.maxSym → r1 ≤ c.maxSym →
    branchMetric c r0 r1 l = hardDistance c r0 l.o0 + hardDistance c r1 l.o1 ∧
    (branchMetric c r0 r1 l : Int) =
      |(r0 : Int) - l.o0.toNat * (2 ^ c.B - 1 : Int)| + |(r1 : Int) - l.o1.toNat * (2 ^ c.B - 1 : Int)| ∧
    branchMetric c r0 r1 l ≤ 2 * (2 ^ c.B - 1) ∧ branchMetric c r0 r1 l < 2 ^ (c.B + 1) ∧
    branchMetric c (l.o0.toNat * c.maxSym) (l.o1.toNat * c.maxSym) l = 0 ∧
    branchMetric c c.maxSym c.maxSym ⟨false, false⟩ = 2 * (2 ^ c.B - 1) ∧
    (1 ≤ c.B → hardDistance c r0 false ≠ hardDistance c r0 true)

/-- R105: a symbol one step closer to its expected value lowers BM by exactly 1, and further never lowers it. -/
def Obligations.BranchMetricIsMonotonic : Prop :=
  ∀ (c : Cfg) (r r' other : Nat) (l : Label), r ≤ c.maxSym → r' ≤ c.maxSym → other ≤ c.maxSym → r ≤ r' →
    (l.o0 = false → branchMetric c r other l + (r' - r) = branchMetric c r' other l) ∧
    (l.o0 = true → branchMetric c r' other l + (r' - r) = branchMetric c r other l) ∧
    (l.o1 = false → branchMetric c other r l + (r' - r) = branchMetric c other r' l) ∧
    (l.o1 = true → branchMetric c other r' l + (r' - r) = branchMetric c other r l)

/-- R104: with B = 1, BM is the Hamming distance. -/
def Obligations.HardDecisionMetricIsTheHammingDistance : Prop :=
  ∀ (c : Cfg) (x0 x1 : Bool) (l : Label), c.B = 1 →
    c.maxSym = 1 ∧
    branchMetric c x0.toNat x1.toNat l = (if x0 = l.o0 then 0 else 1) + (if x1 = l.o1 then 0 else 1)

/-- R103: the BM vector of a FEED holds, for every state and bit, the metric of its label. -/
def Obligations.BranchMetricVectorHoldsTheMetricOfEveryLabel : Prop :=
  ∀ (s : State) (r0 r1 p : Nat) (b : Bool), s.Inv → p < s.cfg.N →
    (bmVector s.cfg s.trellis r0 r1)[2 * p + b.toNat]? =
      some (branchMetric s.cfg r0 r1 (expectedLabel s.cfg p b))

/-! ## The ACS engine -/

/-- R120 and R121: what ACS_STEP selects for every destination. -/
def Obligations.AcsSelectsTheLowerCandidateLowStateOnTies : Prop :=
  ∀ (c : Cfg) (pm bmv : List Nat) (d : Nat), configValid c = true → pm.length = c.N → bmv.length = 2 * c.N →
    d < c.N →
    ∃ q0 q1 e0 e1, pm[d / 2]? = some q0 ∧ pm[d / 2 + 2 ^ (c.K - 2)]? = some q1 ∧
      bmv[2 * (d / 2) + d % 2]? = some e0 ∧ bmv[2 * (d / 2 + 2 ^ (c.K - 2)) + d % 2]? = some e1 ∧
      (acsStep c pm bmv)[d]? = some
        (if q0 + e0 ≤ q1 + e1 then ⟨q0 + e0, ⟨d / 2, d % 2 == 1⟩⟩
          else ⟨q1 + e1, ⟨d / 2 + 2 ^ (c.K - 2), d % 2 == 1⟩⟩)

/-- R124: normalization leaves a least metric of 0, changes no later selection and no traceback start, and moves
every later candidate by the same offset; after RESET the least metric is 0 too. -/
def Obligations.NormalizationChangesNoComparison : Prop :=
  ∀ (c : Cfg) (pm bmv : List Nat), configValid c = true → pm.length = c.N →
    0 ∈ normalize pm ∧ minMetric (normalize pm) = 0 ∧ argminLow (normalize pm) = argminLow pm ∧
    survivors (acsStep c (normalize pm) bmv) = survivors (acsStep c pm bmv) ∧
    newMetrics (acsStep c pm bmv) =
      (newMetrics (acsStep c (normalize pm) bmv)).map (fun x => x + minMetric pm) ∧
    minMetric (resetPM c) = 0

/-! ## FEED -/

/-- R161, R143, R162 while priming: FEED completes, with every effect of a decode cycle, and answers no
output. -/
def Obligations.FeedWhilePrimingAnswersNoOutput : Prop :=
  ∀ (s : State) (r0 r1 : Byte), s.Inv → s.pcnt < s.cfg.D → r0.toNat < 2 ^ s.cfg.B → r1.toNat < 2 ^ s.cfg.B →
    ∃ t, exec (.feed r0 r1) s = .next t ∧ FeedEffect s r0 r1 t ∧ t.output = s.output ++ [0x00000000#32]

/-- R161, R141, R142, R162 when primed: FEED completes, with every effect of a decode cycle, and answers the bit
that the traceback of the state at its start returns. -/
def Obligations.FeedWhenPrimedAnswersTheTracedBit : Prop :=
  ∀ (s : State) (r0 r1 : Byte), s.Inv → s.pcnt = s.cfg.D → r0.toNat < 2 ^ s.cfg.B → r1.toNat < 2 ^ s.cfg.B →
    ∃ t path b, exec (.feed r0 r1) s = .next t ∧ FeedEffect s r0 r1 t ∧ TracesTo s path b ∧
      t.output = s.output ++ [resultWord (some b)]

/-- R101 and R203: a symbol above MAXSYM. -/
def Obligations.FeedRejectsSymbolsAboveTheMaximum : Prop :=
  ∀ (s : State) (r0 r1 : Byte), 2 ^ s.cfg.B - 1 < r0.toNat ∨ 2 ^ s.cfg.B - 1 < r1.toNat →
    exec (.feed r0 r1) s = .next { s with output := s.output ++ [0x00000004#32] }

/-- FEED's frame, in every state: CFG, TRELLIS and the host's stream stay, and every entry of every slot but
WPTR's reads as before. -/
def Obligations.FeedLeavesEveryOtherSlot : Prop :=
  ∀ (s t : State) (r0 r1 : Byte), exec (.feed r0 r1) s = .next t →
    t.cfg = s.cfg ∧ t.trellis = s.trellis ∧ t.input = s.input ∧
    (∀ j d, j ≠ s.wptr → smRead t.sm j d = smRead s.sm j d) ∧
    ((t.modelFault = s.modelFault) ∨
      t.modelFault = true ∧ t.pm = s.pm ∧ t.sm = s.sm ∧ t.wptr = s.wptr ∧ t.pcnt = s.pcnt)

/-- R141 and R217: a traceback that reads bottom sets MODEL_FAULT and writes nothing else. R200 gives this
condition no code, so ERR is the model's free value (log entry 5); the statement holds for every value of it. That a
stored predecessor at or above N leads to bottom, and so to MODEL_FAULT, is the model's choice, log entry 7. -/
def Obligations.FeedIntoBottomSetsModelFaultAlone : Prop :=
  ∀ (s : State) (r0 r1 : Byte), s.shaped = true → s.pcnt = s.cfg.D →
    r0.toNat < 2 ^ s.cfg.B → r1.toNat < 2 ^ s.cfg.B → TracesIntoBottom s →
    ∃ w : Word, exec (.feed r0 r1) s = .next { s with modelFault := true, output := s.output ++ [w] } ∧
      outValidOf w = false ∧ outBitOf w = false

/-- The model's choice (log entry 6): a FEED with legal symbols stops by name where OUT, PM or SM is not of its full
size (be it shorter or longer) or WPTR is not below D, and FEED stops nowhere else: with the arrays of full size and
WPTR below D it completes, whatever its symbols. R41 rules such states out for an instance, as the invariant
says. -/
def Obligations.FeedStopsOnlyInStatesThatAreNotShaped : Prop :=
  (∀ (s : State) (r0 r1 : Byte), s.shaped = false → r0.toNat < 2 ^ s.cfg.B → r1.toNat < 2 ^ s.cfg.B →
    exec (.feed r0 r1) s = .fault .indexOutOfRange) ∧
  (∀ (s : State) (r0 r1 : Byte) (f : Fault), exec (.feed r0 r1) s = .fault f →
    f = .indexOutOfRange ∧ s.shaped = false) ∧
  (∀ (s : State) (r0 r1 : Byte), s.shaped = true → ∃ t, exec (.feed r0 r1) s = .next t) ∧
  (∀ s : State, s.shaped = true ↔
    s.trellis.out.length = 2 * s.cfg.N ∧ s.pm.length = s.cfg.N ∧ s.sm.length = s.cfg.D ∧
      (∀ row ∈ s.sm, row.length = s.cfg.N) ∧ s.wptr < s.cfg.D) ∧
  ∀ s : State, s.Inv → s.shaped = true

/-! ## RESET, NOP, ILLEGAL -/

/-- R164: RESET, in every state. -/
def Obligations.ResetRestoresTheResetState : Prop :=
  ∀ s : State, ∃ t, exec .reset s = .next t ∧
    t.pm.length = s.cfg.N ∧ t.pm[0]? = some 0 ∧ (∀ d, 1 ≤ d → d < s.cfg.N → t.pm[d]? = some s.cfg.S) ∧
    smWf s.cfg t.sm = true ∧ (∀ j d, smRead t.sm j d = none) ∧ t.wptr = 0 ∧ t.pcnt = 0 ∧
    t.cfg = s.cfg ∧ t.trellis = s.trellis ∧ t.modelFault = s.modelFault ∧ t.input = s.input ∧
    t.output = s.output ++ [0x00000000#32]

/-- R165: NOP, in every state. -/
def Obligations.NopChangesNoState : Prop :=
  ∀ s : State, exec .nop s = .next { s with output := s.output ++ [0x00000000#32] }

/-- R166 and R204: ILLEGAL, in every state and for every word. -/
def Obligations.IllegalChangesNoState : Prop :=
  ∀ (s : State) (w : Word), exec (.illegal w) s = .next { s with output := s.output ++ [0x00000008#32] }

/-- R204 and R206: decode comes first. A word with a reserved opcode, a nonzero reserved field, or a nonzero
symbol field beside an opcode other than FEED's answers ILLEGAL_COMMAND whatever its symbol fields hold; a FEED
word with one symbol or both above MAXSYM answers one INVALID_SYMBOL; only FEED can answer INVALID_SYMBOL; no
response carries an error and a decoded bit. The last clause counts the response of a FEED that raises MODEL_FAULT,
which is log entry 5's, with a free ERR code; it holds for every value of it. -/
def Obligations.ErrorsAreReportedDecodeFirstAndOnce : Prop :=
  (∀ (s : State) (w : Word), configValid s.cfg = true →
    (3 ≤ (opc w).toNat ∨ rsv0 w ≠ 0#4 ∨ rsv1 w ≠ 0#8 ∨ (opc w ≠ 0x1#4 ∧ (sym0 w ≠ 0#8 ∨ sym1 w ≠ 0#8))) →
    step (present w s) = .next { s with output := s.output ++ [0x00000008#32] }) ∧
  (∀ (s : State) (w : Word), configValid s.cfg = true →
    opc w = 0x1#4 → rsv0 w = 0#4 → rsv1 w = 0#8 →
    (2 ^ s.cfg.B ≤ (sym0 w).toNat ∨ 2 ^ s.cfg.B ≤ (sym1 w).toNat) →
    step (present w s) = .next { s with output := s.output ++ [0x00000004#32] }) ∧
  ∀ (i : Instr) (s t : State), exec i s = .next t →
    ∃ r, t.output = s.output ++ [r] ∧ (errOf r = 0b01#2 → ∃ r0 r1, i = .feed r0 r1) ∧
      ¬(errOf r ≠ 0b00#2 ∧ outValidOf r = true)

/-! ## The invariant -/

/-- The invariant holds right after reset (of the instance that log entry 1 chooses). -/
def Obligations.ResetStateMeetsTheInvariant : Prop := State.reset.Inv

/-- Every instance that is built is in the reset state of R37 (R220, R221), and meets the invariant. -/
def Obligations.BuiltInstancesAreInTheResetState : Prop :=
  ∀ (c : Cfg) (s : State), buildInstance c = .ok s →
    s.Inv ∧ s.cfg = c ∧ s.trellis = buildTrellis c ∧ s.pm.length = c.N ∧ s.pm[0]? = some 0 ∧
    (∀ d, 1 ≤ d → d < c.N → s.pm[d]? = some c.S) ∧ (∀ j d, smRead s.sm j d = none) ∧
    s.wptr = 0 ∧ s.pcnt = 0 ∧ s.modelFault = false

/-- Every step keeps the invariant: R25 (TRELLIS), R27, R28 (ranges), R29 (which entries are written), R124 (the
least metric is 0), R145 (MODEL_FAULT clear), R148 (what entries hold). -/
def Obligations.EveryStepKeepsTheInvariant : Prop :=
  ∀ s t : State, s.Inv → step s = .next t → t.Inv

/-! ## Runs -/

/-- R28: WPTR and PCNT follow the cycle index of R19, for every sequence of command words. -/
def Obligations.CursorAndCountFollowTheCycleIndex : Prop :=
  ∀ (c : Cfg) (ws : List Word), configValid c = true →
    ∃ t, runCommands (builtState c) ws = .next t ∧
      t.wptr = cyclesFrom c 0 ws % c.D ∧ t.pcnt = min (cyclesFrom c 0 ws) c.D

/-- R163: after any commands, the next FEED that passes the symbol check answers no output exactly while fewer
than D such FEEDs came since the last reset, and a decoded bit from then on. -/
def Obligations.OutputBeginsAtFeedDPlusOne : Prop :=
  ∀ (c : Cfg) (ws : List Word) (r0 r1 : Byte), configValid c = true → symbolsInRange c r0 r1 = true →
    ∃ s t, runCommands (builtState c) ws = .next s ∧ step (present (encode (.feed r0 r1)) s) = .next t ∧
      (cyclesFrom c 0 ws < c.D → t.output = s.output ++ [0x00000000#32]) ∧
      (c.D ≤ cyclesFrom c 0 ws → ∃ b, t.output = s.output ++ [resultWord (some b)])

/-- R165, R166, R101: a command without effect (NOP, ILLEGAL, a rejected FEED) before any commands adds its own
response and changes none of theirs. -/
def Obligations.CommandsWithoutEffectAreTransparent : Prop :=
  ∀ (s : State) (w : Word) (ws : List Word), s.Inv →
    (decode w = .nop ∨ decode w = .illegal w ∨
      ∃ r0 r1, decode w = .feed r0 r1 ∧ symbolsInRange s.cfg r0 r1 = false) →
    ∃ t u r rs, runCommands s ws = .next t ∧ t.output = s.output ++ rs ∧
      runCommands s (w :: ws) = .next u ∧ u.output = s.output ++ r :: rs

/-- R168: the responses after a RESET are those of a freshly built instance of the same configuration, whatever
came before it. -/
def Obligations.ResetForgetsEverythingBefore : Prop :=
  ∀ (s : State) (ws : List Word), s.Inv →
    ∃ t u, runCommands s (0x00000002#32 :: ws) = .next t ∧ runCommands (builtState s.cfg) ws = .next u ∧
      t.output = s.output ++ 0x00000000#32 :: u.output ∧
      t = { u with input := t.input, output := t.output }

/-- R169: the value of WPTR at the start cannot be observed. -/
def Obligations.StartingCursorIsUnobservable : Prop :=
  ∀ (c : Cfg) (j : Nat) (ws : List Word), configValid c = true → j < c.D →
    ∃ t u, runCommands { builtState c with wptr := j } ws = .next t ∧ runCommands (builtState c) ws = .next u ∧
      t.output = u.output

/-- R54, R144, R146: the ring of D slots gives the responses of a decoder that keeps every generation of
survivors and traces back exactly D of them. -/
def Obligations.RingDecodesLikeTheUnboundedHistory : Prop :=
  ∀ (c : Cfg) (rs : List (Byte × Byte)), configValid c = true → legalPairs c rs = true →
    ∃ t, runCommands (builtState c) (feedWords rs) = .next t ∧
      t.output = (historyOutputs c (resetPM c) [] rs).map resultWord

/-- R125: PM with the normalization offsets added back is, for a reachable state, the least total branch metric
over all input sequences that lead to it, and for an unreachable one at least S; and the survivor of a
reachable state comes from a reachable state. -/
def Obligations.PathMetricsAreTheLeastOverAllInputSequences : Prop :=
  ∀ (c : Cfg) (rs : List (Byte × Byte)), configValid c = true → legalPairs c rs = true →
    ∃ t, runCommands (builtState c) (feedWords rs) = .next t ∧
      ∀ d < c.N,
        (reachableAt c rs.length d →
          (∃ bits : List Bool, bits.length = rs.length ∧ encoderState c 0 bits = d ∧
            pathMetric c 0 bits rs = t.pm.getD d 0 + totalOffset (builtState c) rs) ∧
          (∀ bits : List Bool, bits.length = rs.length → encoderState c 0 bits = d →
            t.pm.getD d 0 + totalOffset (builtState c) rs ≤ pathMetric c 0 bits rs) ∧
          (1 ≤ rs.length → ∃ e, smRead t.sm ((t.wptr + c.D - 1) % c.D) d = some e ∧
            reachableAt c (rs.length - 1) e.pred)) ∧
        (¬reachableAt c rs.length d → c.S ≤ t.pm.getD d 0 + totalOffset (builtState c) rs)

/-- R126: the bounds of candidates and stored metrics after any commands; nothing a FEED computes overflows a
register of PM_W bits. -/
def Obligations.MetricsStayWithinTheRegisterWidth : Prop :=
  ∀ (c : Cfg) (ws : List Word) (r0 r1 : Byte), configValid c = true → symbolsInRange c r0 r1 = true →
    ∃ s, runCommands (builtState c) ws = .next s ∧
      (∀ d < c.N,
        pathCandidate s r0 r1 (lowPred d) d ≤ c.S + (c.K - 1) * c.bmMax ∧
        pathCandidate s r0 r1 (highPred c d) d ≤ c.S + (c.K - 1) * c.bmMax ∧
        selectedMetric s r0 r1 d ≤ c.S + (c.K - 1) * c.bmMax ∧
        pathCandidate s r0 r1 (lowPred d) d < 2 ^ c.PM_W ∧
        pathCandidate s r0 r1 (highPred c d) d < 2 ^ c.PM_W ∧
        s.pm.getD d 0 < 2 ^ c.PM_W) ∧
      (c.K - 1 ≤ cyclesFrom c 0 ws → ∀ d < c.N, s.pm.getD d 0 ≤ (c.K - 1) * c.bmMax)

/-- R127, for the sentinel, and R13 and R126, by which no value overflows whatever the register width: two instances
that differ only in the two answer the same words to the same commands. -/
def Obligations.ResponsesDoNotDependOnTheSentinel : Prop :=
  ∀ (c : Cfg) (sentinel width : Nat) (ws : List Word), configValid c = true →
    configValid { c with S := sentinel, PM_W := width } = true →
    ∃ t u, runCommands (builtState c) ws = .next t ∧
      runCommands (builtState { c with S := sentinel, PM_W := width }) ws = .next u ∧ t.output = u.output

/-- The decoder of R1 is a maximum-likelihood sequence decoder (R125, R141, R144): the bit a primed FEED answers
is the bit, D inputs back, of an input sequence whose total branch metric is least among all sequences of its
length. -/
def Obligations.DecodedBitLiesOnALeastMetricSequence : Prop :=
  ∀ (c : Cfg) (rs : List (Byte × Byte)) (r0 r1 : Byte), configValid c = true → legalPairs c rs = true →
    symbolsInRange c r0 r1 = true → c.D ≤ rs.length →
    ∃ s t bits b, runCommands (builtState c) (feedWords rs) = .next s ∧
      step (present (encode (.feed r0 r1)) s) = .next t ∧ t.output = s.output ++ [resultWord (some b)] ∧
      bits.length = rs.length ∧ bits[rs.length - c.D]? = some b ∧
      ∀ bits' : List Bool, bits'.length = rs.length → pathMetric c 0 bits rs ≤ pathMetric c 0 bits' rs

/-- The round trip of 95_test_vectors.md E5 and E6, for every code that taps the current input bit: where every
received symbol lies within `noise` of the companion encoder's (R89), and twice `noise` is less than MAXSYM,
the decoder answers the input bits, delayed by D FEEDs (R144). -/
def Obligations.RoundTripSurvivesBoundedNoise : Prop :=
  ∀ (c : Cfg) (bits : List Bool) (rs : List (Byte × Byte)) (noise : Nat), configValid c = true →
    c.G0.testBit 0 = true ∨ c.G1.testBit 0 = true → 2 * noise < c.maxSym → legalPairs c rs = true →
    List.Forall₂ (fun (r : Byte × Byte) (l : Label) =>
      symbolDistance c (symbolOperand r.1) l.o0 ≤ noise ∧ symbolDistance c (symbolOperand r.2) l.o1 ≤ noise)
      rs (encodeBits c bits) →
    ∃ t, runCommands (builtState c) (feedWords rs) = .next t ∧
      t.output = List.replicate (min c.D bits.length) 0x00000000#32 ++
        (bits.take (bits.length - c.D)).map fun b => resultWord (some b)

/-- A run of words that are all legal, with all symbols in range, is good in R174's sense: one response a command
(R160), none with an error (R62), and MODEL_FAULT clear (R145). -/
def Obligations.RunsOfLegalCommandsAreGood : Prop :=
  ∀ (c : Cfg) (ws : List Word), configValid c = true →
    (∀ w ∈ ws, decode w = .nop ∨ decode w = .reset ∨
      ∃ r0 r1, decode w = .feed r0 r1 ∧ symbolsInRange c r0 r1 = true) →
    ∃ t, runCommands (builtState c) ws = .next t ∧ goodRun [] t = true ∧ t.output.length = ws.length
end

