-- ==== Sys2Proof/Laws/Assembler.lean ====
section
/-! SUPPORT. Sys2Proof/Laws/Assembler.lean: the tokens of a line of the assembler (R70), and what a line of a
mnemonic, or of a mnemonic and two operands, assembles to. -/

namespace Sys2Proof.Machine

/-- Characters that start no comment stay. -/
theorem stripComment_word : ∀ {w : List Char} (rest : List Char), (∀ ch ∈ w, ch ≠ ';') →
    stripComment (w ++ rest) = w ++ stripComment rest
  | [], _, _ => rfl
  | ch :: w, rest, h => by
    obtain ⟨hc, h⟩ := List.forall_mem_cons.mp h
    simp [stripComment, hc, stripComment_word rest h]

/-- Characters that separate nothing go in front of the first token of what follows. -/
theorem splitTokens_word : ∀ {w rest t : List Char} {ts : List (List Char)},
    (∀ ch ∈ w, 0x20 < ch.toNat ∧ ch ≠ ',') → splitTokens rest = t :: ts →
    splitTokens (w ++ rest) = (w ++ t) :: ts
  | [], _, _, _, _, hr => hr
  | ch :: w, _, _, _, h, hr => by
    obtain ⟨hc, h⟩ := List.forall_mem_cons.mp h
    simp [splitTokens, Nat.not_le.mpr hc.1, hc.2, consToken, splitTokens_word h hr]

/-- A line of one word has one token. -/
theorem tokens_one {m : List Char} (hm : m ≠ []) (h : ∀ ch ∈ m, 0x20 < ch.toNat ∧ ch ≠ ',' ∧ ch ≠ ';') :
    tokens m = [m] := by
  have hs := stripComment_word [] fun ch hc => (h ch hc).2.2
  have ht := splitTokens_word (rest := []) (fun ch hc => ⟨(h ch hc).1, (h ch hc).2.1⟩) rfl
  simp only [List.append_nil, stripComment] at hs ht
  simp [tokens, hs, ht, hm]

/-- A line of a word and two operands has four tokens. -/
theorem tokens_two {m a b : List Char} (hm : m ≠ []) (ha : a ≠ []) (hb : b ≠ [])
    (h : ∀ ch ∈ m ++ a ++ b, 0x20 < ch.toNat ∧ ch ≠ ',' ∧ ch ≠ ';') :
    tokens (m ++ ' ' :: a ++ ',' :: ' ' :: b) = [m, a, [','], b] := by
  have hm' := fun ch hc => h ch (List.mem_append_left b (List.mem_append_left a hc))
  have ha' := fun ch hc => h ch (List.mem_append_left b (List.mem_append_right m hc))
  have hb' := fun ch hc => h ch (List.mem_append_right (m ++ a) hc)
  have sb := stripComment_word [] fun ch hc => (hb' ch hc).2.2
  have tb := splitTokens_word (rest := []) (fun ch hc => ⟨(hb' ch hc).1, (hb' ch hc).2.1⟩) rfl
  simp only [List.append_nil, stripComment] at sb tb
  have ta := splitTokens_word (rest := ',' :: ' ' :: b) (t := []) (ts := [[','], [], b])
    (fun ch hc => ⟨(ha' ch hc).1, (ha' ch hc).2.1⟩) (by simp [splitTokens, tb])
  have tm := splitTokens_word (rest := ' ' :: (a ++ ',' :: ' ' :: b)) (t := []) (ts := [a, [','], [], b])
    (fun ch hc => ⟨(hm' ch hc).1, (hm' ch hc).2.1⟩) (by simp [splitTokens, ta])
  have hs : stripComment (m ++ ' ' :: a ++ ',' :: ' ' :: b) = m ++ ' ' :: (a ++ ',' :: ' ' :: b) := by
    rw [List.append_assoc, stripComment_word _ fun ch hc => (hm' ch hc).2.2]
    simp [stripComment, stripComment_word _ fun ch hc => (ha' ch hc).2.2, sb]
  rw [tokens, hs, tm]
  simp [hm, ha, hb]

/-- A character whose upper case is `A` or above separates nothing. -/
theorem upperChar_separates_nothing {ch : Char} (h : 65 ≤ (upperChar ch).toNat) :
    0x20 < ch.toNat ∧ ch ≠ ',' ∧ ch ≠ ';' := by
  have k : 65 ≤ ch.toNat := by
    unfold upperChar at h
    split at h <;> omega
  refine ⟨by omega, ?_, ?_⟩ <;> rintro rfl <;> revert k <;> decide

/-- Nor does a word of such characters. -/
theorem mnemonic_separates_nothing {m M : List Char} (h : m.map upperChar = M)
    (hM : ∀ ch ∈ M, 65 ≤ ch.toNat) : ∀ ch ∈ m, 0x20 < ch.toNat ∧ ch ≠ ',' ∧ ch ≠ ';' := by
  subst h
  exact fun ch hc => upperChar_separates_nothing (hM _ (List.mem_map_of_mem hc))

/-- What a line of one word assembles to. -/
theorem assembleLine_one {c : Cfg} {m M : List Char} (h : m.map upperChar = M) (hne : M ≠ [])
    (hM : ∀ ch ∈ M, 65 ≤ ch.toNat) : assembleLine c m = lineOf (assembleNone M) := by
  have hm : m ≠ [] := by rintro rfl; exact hne h.symm
  simp [assembleLine, tokens_one hm (mnemonic_separates_nothing h hM), h]

/-- What a line of a word and two operands assembles to. -/
theorem assembleLine_two {c : Cfg} {m M a b : List Char} (h : m.map upperChar = M) (hne : M ≠ [])
    (hM : ∀ ch ∈ M, 65 ≤ ch.toNat) (ha : a ≠ []) (hb : b ≠ [])
    (hab : ∀ ch ∈ a ++ b, 0x20 < ch.toNat ∧ ch ≠ ',' ∧ ch ≠ ';') :
    assembleLine c (m ++ ' ' :: a ++ ',' :: ' ' :: b) = lineOf (assembleTwo c M a b) := by
  have hm : m ≠ [] := by rintro rfl; exact hne h.symm
  have ht := tokens_two hm ha hb (fun ch hc => by
    rw [List.append_assoc, List.mem_append] at hc
    exact hc.elim (mnemonic_separates_nothing h hM ch) (hab ch))
  unfold assembleLine
  rw [ht]
  simp [h]

end Sys2Proof.Machine
end

