-- ==== Sys2Proof/Laws/Decode.lean ====
section
/-! SUPPORT. Sys2Proof/Laws/Decode.lean: the fields of a packed word, a word from its parts, and the match and
mask of FEED by fields. -/

namespace Sys2Proof

/-! ## The fields of a packed command word (R60) -/

/-- The bits of a packed command word (R60). -/
theorem getLsbD_packCommand (op : BitVec 4) (s0 s1 : Byte) (i : Nat) :
    (packCommand op s0 s1).getLsbD i =
      if i < 4 then op.getLsbD i else if i < 8 then false else if i < 16 then s0.getLsbD (i - 8)
      else if i < 24 then s1.getLsbD (i - 16) else false := by
  rw [packCommand, BitVec.getLsbD_cast]
  repeat rw [BitVec.getLsbD_append]
  simp only [BitVec.getLsbD_zero]
  split_ifs <;> first | rfl | omega

theorem opc_packCommand (op : BitVec 4) (s0 s1 : Byte) : opc (packCommand op s0 s1) = op := by
  apply BitVec.eq_of_getLsbD_eq
  intro i hi
  rw [opc, BitVec.getLsbD_extractLsb', getLsbD_packCommand]
  interval_cases i <;> rfl

theorem rsv0_packCommand (op : BitVec 4) (s0 s1 : Byte) : rsv0 (packCommand op s0 s1) = 0#4 := by
  apply BitVec.eq_of_getLsbD_eq
  intro i hi
  rw [rsv0, BitVec.getLsbD_extractLsb', getLsbD_packCommand]
  interval_cases i <;> rfl

theorem sym0_packCommand (op : BitVec 4) (s0 s1 : Byte) : sym0 (packCommand op s0 s1) = s0 := by
  apply BitVec.eq_of_getLsbD_eq
  intro i hi
  rw [sym0, BitVec.getLsbD_extractLsb', getLsbD_packCommand]
  interval_cases i <;> rfl

theorem sym1_packCommand (op : BitVec 4) (s0 s1 : Byte) : sym1 (packCommand op s0 s1) = s1 := by
  apply BitVec.eq_of_getLsbD_eq
  intro i hi
  rw [sym1, BitVec.getLsbD_extractLsb', getLsbD_packCommand]
  interval_cases i <;> rfl

theorem rsv1_packCommand (op : BitVec 4) (s0 s1 : Byte) : rsv1 (packCommand op s0 s1) = 0#8 := by
  apply BitVec.eq_of_getLsbD_eq
  intro i hi
  rw [rsv1, BitVec.getLsbD_extractLsb', getLsbD_packCommand]
  interval_cases i <;> rfl

/-! ## A word from its parts -/

/-- The five fields cover the word (R60). -/
theorem word_of_fields (w : Word) : (rsv1 w ++ sym1 w ++ sym0 w ++ rsv0 w ++ opc w).cast rfl = w := by
  apply BitVec.eq_of_getLsbD_eq
  intro i hi
  rw [BitVec.getLsbD_cast]
  repeat rw [BitVec.getLsbD_append]
  simp only [opc, rsv0, sym0, sym1, rsv1, BitVec.getLsbD_extractLsb']
  interval_cases i <;> rfl

/-- The four bytes cover the word (R45). -/
theorem word_of_bytes (w : Word) :
    wordOfBytes (w.extractLsb' 0 8) (w.extractLsb' 8 8) (w.extractLsb' 16 8) (w.extractLsb' 24 8) = w := by
  apply BitVec.eq_of_getLsbD_eq
  intro i hi
  rw [wordOfBytes, BitVec.getLsbD_cast]
  repeat rw [BitVec.getLsbD_append]
  simp only [BitVec.getLsbD_extractLsb']
  interval_cases i <;> rfl

/-- A word whose reserved fields are zero is packed from its other fields. -/
theorem packCommand_of_fields (w : Word) (h0 : rsv0 w = 0#4) (h1 : rsv1 w = 0#8) :
    packCommand (opc w) (sym0 w) (sym1 w) = w := by
  conv_rhs => rw [← word_of_fields w, h0, h1]
  rfl

/-- FEED's match and mask (R65) by fields: the mask keeps RSV1, RSV0 and OPC. -/
theorem feedPattern_iff (w : Word) :
    w &&& 0xFF0000FF#32 = 0x00000001#32 ↔ opc w = 0x1#4 ∧ rsv0 w = 0#4 ∧ rsv1 w = 0#8 := by
  constructor
  · intro h
    have bit : ∀ i, (w.getLsbD i && (0xFF0000FF#32).getLsbD i) = (0x00000001#32).getLsbD i := fun i => by
      rw [← BitVec.getLsbD_and, h]
    refine ⟨?_, ?_, ?_⟩ <;> apply BitVec.eq_of_getLsbD_eq <;> intro i hi
    · have := bit i
      rw [opc, BitVec.getLsbD_extractLsb']
      interval_cases i <;> simpa using this
    · have := bit (4 + i)
      rw [rsv0, BitVec.getLsbD_extractLsb']
      interval_cases i <;> simpa using this
    · have := bit (24 + i)
      rw [rsv1, BitVec.getLsbD_extractLsb']
      interval_cases i <;> simpa using this
  · rintro ⟨ho, h0, h1⟩
    rw [← packCommand_of_fields w h0 h1, ho]
    apply BitVec.eq_of_getLsbD_eq
    intro i hi
    rw [BitVec.getLsbD_and, getLsbD_packCommand]
    interval_cases i <;> simp

end Sys2Proof
end

