-- ==== Sys2Proof/Laws/PerInstr.lean ====
section
/-! SUPPORT. Sys2Proof/Laws/PerInstr.lean: facts about the commands as terms, one lemma per constructor. -/

namespace Sys2Proof.Laws.OperationCode

/-- The operation code of a well-formed command's word is its own (R64): 0, 1 and 2 for NOP, FEED and RESET, and
an illegal word has another one or a nonzero bit that its format wants zero (R65). -/
def Statement (i : Instr) : Prop :=
  WellFormed i →
    match i with
    | .nop => opc (encode i) = 0x0#4
    | .feed _ _ => opc (encode i) = 0x1#4
    | .reset => opc (encode i) = 0x2#4
    | .illegal w => encode i = w ∧ matchesLegalPattern w = false

theorem nop : Statement .nop := fun _ => opc_packCommand _ _ _

theorem feed (r0 r1 : Byte) : Statement (.feed r0 r1) := fun _ => opc_packCommand _ _ _

theorem reset : Statement .reset := fun _ => opc_packCommand _ _ _

theorem illegal (w : Word) : Statement (.illegal w) := fun h => ⟨rfl, by simpa [WellFormed, Instr.wellFormed] using h⟩

end Sys2Proof.Laws.OperationCode
end

