-- ==== Sys2Proof/Laws/State.lean ====
section
/-! SUPPORT. Sys2Proof/Laws/State.lean: what each update of the state leaves in each field. -/

namespace Sys2Proof.Machine

/-! ## Returning a response (R160) -/

@[simp] theorem respond_cfg (s : State) (r : Response) : (s.respond r).cfg = s.cfg := rfl
@[simp] theorem respond_trellis (s : State) (r : Response) : (s.respond r).trellis = s.trellis := rfl
@[simp] theorem respond_pm (s : State) (r : Response) : (s.respond r).pm = s.pm := rfl
@[simp] theorem respond_sm (s : State) (r : Response) : (s.respond r).sm = s.sm := rfl
@[simp] theorem respond_wptr (s : State) (r : Response) : (s.respond r).wptr = s.wptr := rfl
@[simp] theorem respond_pcnt (s : State) (r : Response) : (s.respond r).pcnt = s.pcnt := rfl
@[simp] theorem respond_modelFault (s : State) (r : Response) : (s.respond r).modelFault = s.modelFault := rfl
@[simp] theorem respond_input (s : State) (r : Response) : (s.respond r).input = s.input := rfl
@[simp] theorem respond_output (s : State) (r : Response) : (s.respond r).output = s.output ++ [responseWord r] := rfl

/-! ## Raising an error (R201) -/

@[simp] theorem raise_cfg (s : State) (e : Raised) : (s.raise e).cfg = s.cfg := rfl
@[simp] theorem raise_trellis (s : State) (e : Raised) : (s.raise e).trellis = s.trellis := rfl
@[simp] theorem raise_pm (s : State) (e : Raised) : (s.raise e).pm = s.pm := rfl
@[simp] theorem raise_sm (s : State) (e : Raised) : (s.raise e).sm = s.sm := rfl
@[simp] theorem raise_wptr (s : State) (e : Raised) : (s.raise e).wptr = s.wptr := rfl
@[simp] theorem raise_pcnt (s : State) (e : Raised) : (s.raise e).pcnt = s.pcnt := rfl
@[simp] theorem raise_modelFault (s : State) (e : Raised) : (s.raise e).modelFault = (s.modelFault || e == Raised.modelFault) := rfl
@[simp] theorem raise_input (s : State) (e : Raised) : (s.raise e).input = s.input := rfl
@[simp] theorem raise_output (s : State) (e : Raised) : (s.raise e).output = s.output ++ [responseWord (errorResponse (raisedCode s.output.length e))] := rfl

/-! ## The writes of FEED (R161) -/

@[simp] theorem feedWrites_cfg (s : State) (r0 r1 : Nat) : (feedWrites s r0 r1).cfg = s.cfg := rfl
@[simp] theorem feedWrites_trellis (s : State) (r0 r1 : Nat) : (feedWrites s r0 r1).trellis = s.trellis := rfl
@[simp] theorem feedWrites_pm (s : State) (r0 r1 : Nat) : (feedWrites s r0 r1).pm = normalize (newMetrics (feedSelections s r0 r1)) := rfl
@[simp] theorem feedWrites_sm (s : State) (r0 r1 : Nat) : (feedWrites s r0 r1).sm = smRecord s.sm s.wptr (survivors (feedSelections s r0 r1)) := rfl
@[simp] theorem feedWrites_wptr (s : State) (r0 r1 : Nat) : (feedWrites s r0 r1).wptr = nextCursor s.cfg.D s.wptr := rfl
@[simp] theorem feedWrites_pcnt (s : State) (r0 r1 : Nat) : (feedWrites s r0 r1).pcnt = nextCount s.cfg.D s.pcnt := rfl
@[simp] theorem feedWrites_modelFault (s : State) (r0 r1 : Nat) : (feedWrites s r0 r1).modelFault = s.modelFault := rfl
@[simp] theorem feedWrites_input (s : State) (r0 r1 : Nat) : (feedWrites s r0 r1).input = s.input := rfl
@[simp] theorem feedWrites_output (s : State) (r0 r1 : Nat) : (feedWrites s r0 r1).output = s.output := rfl

/-! ## The writes of RESET (R164) -/

@[simp] theorem resetWrites_cfg (s : State) : (resetWrites s).cfg = s.cfg := rfl
@[simp] theorem resetWrites_trellis (s : State) : (resetWrites s).trellis = s.trellis := rfl
@[simp] theorem resetWrites_pm (s : State) : (resetWrites s).pm = resetPM s.cfg := rfl
@[simp] theorem resetWrites_sm (s : State) : (resetWrites s).sm = resetSM s.cfg := rfl
@[simp] theorem resetWrites_wptr (s : State) : (resetWrites s).wptr = 0 := rfl
@[simp] theorem resetWrites_pcnt (s : State) : (resetWrites s).pcnt = 0 := rfl
@[simp] theorem resetWrites_modelFault (s : State) : (resetWrites s).modelFault = s.modelFault := rfl
@[simp] theorem resetWrites_input (s : State) : (resetWrites s).input = s.input := rfl
@[simp] theorem resetWrites_output (s : State) : (resetWrites s).output = s.output := rfl

/-! ## Presenting a command word (R170) -/

@[simp] theorem present_cfg (w : Word) (s : State) : (present w s).cfg = s.cfg := rfl
@[simp] theorem present_trellis (w : Word) (s : State) : (present w s).trellis = s.trellis := rfl
@[simp] theorem present_pm (w : Word) (s : State) : (present w s).pm = s.pm := rfl
@[simp] theorem present_sm (w : Word) (s : State) : (present w s).sm = s.sm := rfl
@[simp] theorem present_wptr (w : Word) (s : State) : (present w s).wptr = s.wptr := rfl
@[simp] theorem present_pcnt (w : Word) (s : State) : (present w s).pcnt = s.pcnt := rfl
@[simp] theorem present_modelFault (w : Word) (s : State) : (present w s).modelFault = s.modelFault := rfl
@[simp] theorem present_input (w : Word) (s : State) : (present w s).input = w :: s.input := rfl
@[simp] theorem present_output (w : Word) (s : State) : (present w s).output = s.output := rfl

@[simp] theorem withFetchWord_cfg (s : State) (nbits w : Nat) : (s.withFetchWord nbits w).cfg = s.cfg := rfl
@[simp] theorem withFetchWord_trellis (s : State) (nbits w : Nat) : (s.withFetchWord nbits w).trellis = s.trellis := rfl
@[simp] theorem withFetchWord_pm (s : State) (nbits w : Nat) : (s.withFetchWord nbits w).pm = s.pm := rfl
@[simp] theorem withFetchWord_sm (s : State) (nbits w : Nat) : (s.withFetchWord nbits w).sm = s.sm := rfl
@[simp] theorem withFetchWord_wptr (s : State) (nbits w : Nat) : (s.withFetchWord nbits w).wptr = s.wptr := rfl
@[simp] theorem withFetchWord_pcnt (s : State) (nbits w : Nat) : (s.withFetchWord nbits w).pcnt = s.pcnt := rfl
@[simp] theorem withFetchWord_modelFault (s : State) (nbits w : Nat) : (s.withFetchWord nbits w).modelFault = s.modelFault := rfl
@[simp] theorem withFetchWord_input (s : State) (nbits w : Nat) : (s.withFetchWord nbits w).input = tableWord nbits w :: s.input := rfl
@[simp] theorem withFetchWord_output (s : State) (nbits w : Nat) : (s.withFetchWord nbits w).output = s.output := rfl

/-! ## A built instance (R37) -/

@[simp] theorem builtState_cfg (c : Cfg) : (builtState c).cfg = c := rfl
@[simp] theorem builtState_trellis (c : Cfg) : (builtState c).trellis = buildTrellis c := rfl
@[simp] theorem builtState_pm (c : Cfg) : (builtState c).pm = resetPM c := rfl
@[simp] theorem builtState_sm (c : Cfg) : (builtState c).sm = resetSM c := rfl
@[simp] theorem builtState_wptr (c : Cfg) : (builtState c).wptr = 0 := rfl
@[simp] theorem builtState_pcnt (c : Cfg) : (builtState c).pcnt = 0 := rfl
@[simp] theorem builtState_modelFault (c : Cfg) : (builtState c).modelFault = false := rfl
@[simp] theorem builtState_input (c : Cfg) : (builtState c).input = [] := rfl
@[simp] theorem builtState_output (c : Cfg) : (builtState c).output = [] := rfl

/-! ## The errors that are not MODEL_FAULT leave the state as it was (R201) -/

theorem raise_invalidSymbol (s : State) :
    s.raise .invalidSymbol = s.respond (errorResponse .invalidSymbol) := by
  have h : (Raised.invalidSymbol == Raised.modelFault) = false := by decide
  simp [State.raise, raisedCode, h]

theorem raise_illegalCommand (s : State) :
    s.raise .illegalCommand = s.respond (errorResponse .illegalCommand) := by
  have h : (Raised.illegalCommand == Raised.modelFault) = false := by decide
  simp [State.raise, raisedCode, h]

/-! ## The words of the responses (R61, R162, R201) -/

@[simp] theorem responseWord_none : responseWord (okResponse none) = 0x00000000#32 := by decide
@[simp] theorem responseWord_some_false : responseWord (okResponse (some false)) = 0x00000001#32 := by decide
@[simp] theorem responseWord_some_true : responseWord (okResponse (some true)) = 0x00000003#32 := by decide
@[simp] theorem responseWord_invalidSymbol :
    responseWord (errorResponse .invalidSymbol) = 0x00000004#32 := by decide
@[simp] theorem responseWord_illegalCommand :
    responseWord (errorResponse .illegalCommand) = 0x00000008#32 := by decide

/-- The fields of a response word are what the response says (R61). -/
theorem responseWord_fields (r : Response) :
    outValidOf (responseWord r) = r.outValid ∧ outBitOf (responseWord r) = r.outBit ∧
      errOf (responseWord r) = errBits r.err ∧ (responseWord r).extractLsb' 4 28 = 0#28 := by
  obtain ⟨v, b, e⟩ := r
  cases v <;> cases b <;> cases e <;> decide

end Sys2Proof.Machine
end

