-- ==== Sys2Proof/Laws/Step.lean ====
section
/-! SUPPORT. Sys2Proof/Laws/Step.lean: what each command can do, said once per command, and what a step does with
the word it is given. -/

namespace Sys2Proof.Machine

/-- Everything a FEED cycle can do (R161): raise MODEL_FAULT, or write its results and answer. -/
theorem feedCycle_cases (s : State) (r0 r1 : Nat) :
    (feedOutput s = none ∧ feedCycle s r0 r1 = s.raise .modelFault) ∨
    ∃ out, feedOutput s = some out ∧ feedCycle s r0 r1 = (feedWrites s r0 r1).respond (okResponse out) := by
  unfold feedCycle
  cases h : feedOutput s with
  | none => exact .inl ⟨rfl, rfl⟩
  | some out => exact .inr ⟨out, rfl, rfl⟩

/-- Everything FEED can do (R101, R161). -/
theorem execFeed_cases {r0 r1 : Byte} {s t : State} (h : execFeed r0 r1 s = .next t) :
    (symbolsInRange s.cfg r0 r1 = false ∧ t = s.raise .invalidSymbol) ∨
    (symbolsInRange s.cfg r0 r1 = true ∧ s.shaped = true ∧
      t = feedCycle s (symbolOperand r0) (symbolOperand r1)) := by
  unfold execFeed at h
  split at h
  next hr =>
    split at h
    next hs => exact .inr ⟨hr, hs, by injection h with h; exact h.symm⟩
    next => cases h
  next hr => exact .inl ⟨by simpa using hr, by injection h with h; exact h.symm⟩

/-- Where FEED completes, whatever the state holds (R161). -/
theorem execFeed_next {r0 r1 : Byte} {s : State} (hr : symbolsInRange s.cfg r0 r1 = true)
    (hs : s.shaped = true) :
    execFeed r0 r1 s = .next (feedCycle s (symbolOperand r0) (symbolOperand r1)) := by
  simp [execFeed, hr, hs]

/-- Everything a command can do (R160). -/
theorem exec_cases {i : Instr} {s t : State} (h : exec i s = .next t) :
    (i = .nop ∧ t = s.respond (okResponse none)) ∨
    (∃ r0 r1, i = .feed r0 r1 ∧ execFeed r0 r1 s = .next t) ∨
    (i = .reset ∧ t = (resetWrites s).respond (okResponse none)) ∨
    (∃ w, i = .illegal w ∧ t = s.raise .illegalCommand) := by
  cases i with
  | nop => exact .inl ⟨rfl, by injection h with h; exact h.symm⟩
  | feed r0 r1 => exact .inr (.inl ⟨r0, r1, rfl, h⟩)
  | reset => exact .inr (.inr (.inl ⟨rfl, by injection h with h; exact h.symm⟩))
  | illegal w => exact .inr (.inr (.inr ⟨w, rfl, by injection h with h; exact h.symm⟩))

/-- Everything a step can do: nothing, or the command the host presents (R160, R216). -/
theorem step_cases {s t : State} (h : step s = .next t) :
    configValid s.cfg = true ∧
      ((s.input = [] ∧ t = s) ∨
        ∃ w rest, s.input = w :: rest ∧ exec (decode w) { s with input := rest } = .next t) := by
  unfold step acceptsCommands at h
  split at h
  next hv =>
    refine ⟨hv, ?_⟩
    unfold presented at h
    cases hi : s.input with
    | nil =>
      rw [hi] at h
      exact .inl ⟨rfl, by injection h with h; exact h.symm⟩
    | cons w rest =>
      rw [hi] at h
      exact .inr ⟨w, rest, rfl, h⟩
  next => cases h

/-- A run of one more command. -/
theorem runCommands_cons {s t : State} {w : Word} {ws : List Word} (h : step (present w s) = .next t) :
    runCommands s (w :: ws) = runCommands t ws := by
  simp [runCommands, h]

/-- A run of two sequences, one after the other. -/
theorem runCommands_append : ∀ {s t : State} {us ws : List Word}, runCommands s us = .next t →
    runCommands s (us ++ ws) = runCommands t ws
  | s, t, [], ws, h => by injection h with h; rw [h]; rfl
  | s, t, u :: us, ws, h => by
    cases hs : step (present u s) with
    | next a =>
      rw [runCommands_cons hs] at h
      rw [List.cons_append, runCommands_cons hs]
      exact runCommands_append h
    | fault f => rw [runCommands, hs] at h; cases h
    | refused r => rw [runCommands, hs] at h; cases h

end Sys2Proof.Machine
end

