-- ==== Sys2Proof/Laws/Storage.lean ====
section
/-! SUPPORT. Sys2Proof/Laws/Storage.lean: what reading and writing PM and SM do (R17, R42 to R44), and the minima
of a vector (R16). -/

namespace Sys2Proof.Machine

/-! ## Survivor memory -/

/-- The shape of SM, said without Booleans (R26). -/
theorem smWf_iff (c : Cfg) (sm : Memory) :
    smWf c sm = true ↔ sm.length = c.D ∧ ∀ slot ∈ sm, slot.length = c.N := by
  simp [smWf]

/-- RECORD keeps the shape of the memory (R140). -/
theorem smWf_record (c : Cfg) (sm : Memory) (j : Nat) (row : List Survivor) (h : smWf c sm = true)
    (hr : row.length = c.N) : smWf c (smRecord sm j row) = true := by
  rw [smWf_iff] at h ⊢
  refine ⟨by simpa [smRecord] using h.1, fun slot hs => ?_⟩
  rcases List.mem_or_eq_of_mem_set hs with hs | rfl
  · exact h.2 slot hs
  · simpa using hr

/-- The memory after reset has its shape (R37). -/
theorem smWf_reset (c : Cfg) : smWf c (resetSM c) = true := by
  rw [smWf_iff]
  refine ⟨by simp [resetSM], fun slot hs => ?_⟩
  rw [List.eq_of_mem_replicate hs, List.length_replicate]

/-- Every entry of the memory after reset is bottom (R37). -/
theorem smRead_reset (c : Cfg) (j d : Nat) : smRead (resetSM c) j d = none := by
  have slot : (resetSM c).getD j [] = List.replicate c.N none ∨ (resetSM c).getD j [] = [] := by
    rw [List.getD_eq_getElem?_getD, resetSM, List.getElem?_replicate]
    split <;> simp
  rcases slot with h | h
  · rw [smRead, h, List.getD_eq_getElem?_getD, List.getElem?_replicate]
    split <;> rfl
  · rw [smRead, h]; rfl

/-- A recorded slot reads as the recorded row (R140). -/
theorem smRead_record_self (sm : Memory) (j : Nat) (row : List Survivor) (d : Nat) (hj : j < sm.length) :
    smRead (smRecord sm j row) j d = row[d]? := by
  simp only [smRead, smRecord, List.getD_eq_getElem?_getD, List.getElem?_set_self hj, Option.getD_some,
    List.getElem?_map]
  cases row[d]? <;> rfl

/-- Every other slot reads as before (R42). -/
theorem smRead_record_other (sm : Memory) (j k : Nat) (row : List Survivor) (d : Nat) (h : k ≠ j) :
    smRead (smRecord sm j row) k d = smRead sm k d := by
  simp only [smRead, smRecord, List.getD_eq_getElem?_getD, List.getElem?_set_ne (Ne.symm h)]

@[simp] theorem smRecord_length (sm : Memory) (j : Nat) (row : List Survivor) :
    (smRecord sm j row).length = sm.length := by simp [smRecord]

/-! ## The ring (R27, R28, R141) -/

theorem nextCursor_lt {depth : Nat} (h : 0 < depth) (j : Nat) : nextCursor depth j < depth := Nat.mod_lt _ h

theorem prevSlot_lt {depth : Nat} (h : 0 < depth) (j : Nat) : prevSlot depth j < depth := Nat.mod_lt _ h

/-- The slot before the cursor of the next FEED is the one this FEED records into (R141). -/
theorem prevSlot_nextCursor {depth j : Nat} (h : j < depth) : prevSlot depth (nextCursor depth j) = j := by
  unfold prevSlot nextCursor
  rcases Nat.lt_or_ge (j + 1) depth with hj | hj
  · rw [Nat.mod_eq_of_lt hj, show j + 1 + depth - 1 = j + depth by omega, Nat.add_mod_right, Nat.mod_eq_of_lt h]
  · rw [show j + 1 = depth by omega, Nat.mod_self, Nat.mod_eq_of_lt (by omega)]
    omega

theorem nextCount_le (depth n : Nat) : nextCount depth n ≤ depth := min_le_right _ _

/-! ## Minima -/

/-- The minimum is an element (R16). -/
theorem minMetric_mem : ∀ {v : List Nat}, v ≠ [] → minMetric v ∈ v
  | [_], _ => by simp [minMetric]
  | x :: y :: rest, _ => by
    rcases min_choice x (minMetric (y :: rest)) with h | h
    · simp [minMetric, h]
    · rw [minMetric, h]
      exact List.mem_cons_of_mem _ (minMetric_mem (List.cons_ne_nil _ _))

/-- No element is below the minimum (R16). -/
theorem minMetric_le : ∀ {v : List Nat} {x : Nat}, x ∈ v → minMetric v ≤ x
  | [a], x, h => by simp_all [minMetric]
  | a :: b :: rest, x, h => by
    rcases List.mem_cons.mp h with rfl | h
    · exact min_le_left _ _
    · exact (min_le_right _ _).trans (minMetric_le h)

/-- The start of the traceback is a place of the least element, when there is one (R16, R141). -/
theorem argminLow_spec {v : List Nat} (h : v ≠ []) :
    v[argminLow v]? = some (minMetric v) ∧ ∀ i < argminLow v, v[i]? ≠ some (minMetric v) := by
  have hm := minMetric_mem h
  have hl : argminLow v < v.length := List.idxOf_lt_length_of_mem hm
  refine ⟨?_, fun i hi hc => ?_⟩
  · rw [List.getElem?_eq_getElem hl]
    exact congrArg some (List.getElem_idxOf hl)
  · have hi' : i < v.length := hi.trans hl
    rw [List.getElem?_eq_getElem hi', Option.some_inj] at hc
    have := List.not_of_lt_findIdx (xs := v) (p := (· == minMetric v)) (i := i) hi
    simp [hc] at this

@[simp] theorem normalize_length (v : List Nat) : (normalize v).length = v.length := by simp [normalize]

/-! ## ACS_STEP -/

@[simp] theorem acsStep_length (c : Cfg) (pm bmv : List Nat) : (acsStep c pm bmv).length = c.N := by
  simp [acsStep]

/-- The selection of destination `d` (R120). -/
theorem acsStep_at (c : Cfg) (pm bmv : List Nat) (d : Nat) (hd : d < c.N) :
    (acsStep c pm bmv)[d]? = some (select c pm bmv d) := by
  simp [acsStep, List.getElem?_range hd]

@[simp] theorem newMetrics_length (sel : List Selected) : (newMetrics sel).length = sel.length := by
  simp [newMetrics]

@[simp] theorem survivors_length (sel : List Selected) : (survivors sel).length = sel.length := by
  simp [survivors]

@[simp] theorem feedSelections_length (s : State) (r0 r1 : Nat) :
    (feedSelections s r0 r1).length = s.cfg.N := by
  simp [feedSelections]

/-- The selected metric is the lower candidate, and the survivor is the predecessor it came through. -/
theorem select_cases (c : Cfg) (pm bmv : List Nat) (d : Nat) :
    (candidate pm bmv (plo d) d ≤ candidate pm bmv (phi c d) d ∧
      select c pm bmv d = ⟨candidate pm bmv (plo d) d, ⟨plo d, inputBit d⟩⟩) ∨
    (candidate pm bmv (phi c d) d < candidate pm bmv (plo d) d ∧
      select c pm bmv d = ⟨candidate pm bmv (phi c d) d, ⟨phi c d, inputBit d⟩⟩) := by
  by_cases h : candidate pm bmv (plo d) d ≤ candidate pm bmv (phi c d) d
  · exact .inl ⟨h, by simp [select, h]⟩
  · exact .inr ⟨not_le.mp h, by simp [select, h]⟩

end Sys2Proof.Machine
end

