-- ==== Sys2Proof/Laws/Trellis.lean ====
section
/-! SUPPORT. Sys2Proof/Laws/Trellis.lean: the trellis formulas in plain arithmetic, and looking up the built
tables. -/

namespace Sys2Proof.Machine

/-- What CONFIG_CHECK gives (R80), the width condition left as it stands there. -/
theorem configValid_iff (c : Cfg) :
    configValid c = true ↔
      2 ≤ c.K ∧ c.G0 < 2 ^ c.K ∧ c.G1 < 2 ^ c.K ∧ 1 ≤ c.B ∧ c.B ≤ 8 ∧ 1 ≤ c.D ∧
        (c.K - 1) * 2 * (2 ^ c.B - 1) < c.S ∧ bitLength (c.S + (c.K - 1) * 2 * (2 ^ c.B - 1)) ≤ c.PM_W := by
  simp only [configValid, Bool.and_eq_true, decide_eq_true_eq, and_assoc]

/-- A number has at most `w` bits exactly when it is below `2^w` (R13). -/
theorem bitLength_le_iff (n w : Nat) : bitLength n ≤ w ↔ n < 2 ^ w := by
  unfold bitLength
  split
  next h => simp [h]
  next h => rw [Nat.add_one_le_iff, Nat.log2_lt h]

theorem N_pos (c : Cfg) : 0 < c.N := by simp [Cfg.N]

/-- `N` is twice the distance of the two predecessors of a state (R86). -/
theorem N_eq_two_mul (c : Cfg) (h : 2 ≤ c.K) : c.N = 2 * 2 ^ (c.K - 2) := by
  obtain ⟨k, hk⟩ := Nat.exists_eq_add_of_le h
  simp [Cfg.N, hk, show 2 + k - 1 = k + 1 by omega, pow_succ, mul_comm]

theorem reg_eq (s : Nat) (b : Bool) : reg s b = 2 * s + b.toNat := by
  have h : s <<< 1 = 2 ^ 1 * s := by rw [Nat.shiftLeft_eq, mul_comm]
  rw [reg, h, ← Nat.two_pow_add_eq_or_of_lt (by cases b <;> simp), pow_one]

theorem nextState_lt (c : Cfg) (s : Nat) (b : Bool) : nextState c s b < c.N := Nat.mod_lt _ (N_pos c)

theorem plo_eq (d : Nat) : plo d = d / 2 := by simp [plo, Nat.shiftRight_eq_div_pow]

theorem phi_eq (c : Cfg) (d : Nat) (hK : 2 ≤ c.K) (hd : d < c.N) : phi c d = d / 2 + 2 ^ (c.K - 2) := by
  have h : d / 2 < 2 ^ (c.K - 2) := by rw [N_eq_two_mul c hK] at hd; omega
  rw [phi, Nat.shiftRight_eq_div_pow, Nat.or_comm, pow_one]
  have := Nat.two_pow_add_eq_or_of_lt h 1
  simp only [mul_one] at this
  rw [← this, add_comm]

theorem plo_lt (c : Cfg) (d : Nat) (hd : d < c.N) : plo d < c.N := by rw [plo_eq]; omega

theorem phi_lt (c : Cfg) (d : Nat) (hK : 2 ≤ c.K) (hd : d < c.N) : phi c d < c.N := by
  rw [phi_eq c d hK hd]
  have := N_eq_two_mul c hK
  omega

/-- The parity is the number of set bits, modulo 2 (R15). -/
theorem parity_eq : ∀ n x : Nat, parity n x = ((List.range n).countP (fun i => x.testBit i) % 2 == 1)
  | 0, _ => rfl
  | n + 1, x => by
    have shift : (fun i => x.testBit i) ∘ Nat.succ = fun i => (x / 2).testBit i := by
      funext i
      simp [Nat.testBit_succ]
    rw [parity, parity_eq n, List.range_succ_eq_map, List.countP_cons, List.countP_map, shift, Nat.testBit_zero]
    generalize (List.range n).countP _ = m
    rcases Nat.mod_two_eq_zero_or_one x with h | h <;> rcases Nat.mod_two_eq_zero_or_one m with h' | h' <;>
      simp [h, h'] <;> omega

/-! ## The built tables (R85) -/

@[simp] theorem buildTrellis_next_length (c : Cfg) : (buildTrellis c).next.length = 2 * c.N := by
  simp [buildTrellis]

@[simp] theorem buildTrellis_out_length (c : Cfg) : (buildTrellis c).out.length = 2 * c.N := by
  simp [buildTrellis]

theorem tableIndex_lt (c : Cfg) (s : Nat) (b : Bool) (hs : s < c.N) : tableIndex s b < 2 * c.N := by
  have := b.toNat_le
  simp only [tableIndex]
  omega

theorem tableIndex_div (s : Nat) (b : Bool) : tableIndex s b / 2 = s := by
  cases b <;> simp [tableIndex]
  omega

theorem tableIndex_bit (s : Nat) (b : Bool) : (tableIndex s b % 2 == 1) = b := by
  cases b <;> simp [tableIndex]

/-- NEXT[s][b] of a built instance (R83). -/
theorem buildTrellis_next_at (c : Cfg) (s : Nat) (b : Bool) (hs : s < c.N) :
    (buildTrellis c).next[tableIndex s b]? = some (nextState c s b) := by
  simp [buildTrellis, List.getElem?_range (tableIndex_lt c s b hs), tableIndex_div, tableIndex_bit]

/-- OUT[s][b] of a built instance (R84). -/
theorem buildTrellis_out_at (c : Cfg) (s : Nat) (b : Bool) (hs : s < c.N) :
    (buildTrellis c).out[tableIndex s b]? = some (outLabel c s b) := by
  simp [buildTrellis, List.getElem?_range (tableIndex_lt c s b hs), tableIndex_div, tableIndex_bit]

/-- The symbol check, as R101 puts it. -/
theorem symbolsInRange_iff (c : Cfg) (r0 r1 : Byte) :
    symbolsInRange c r0 r1 = true ↔ r0.toNat ≤ c.maxSym ∧ r1.toNat ≤ c.maxSym := by
  have h (r : Byte) : symbolInRange c r = true ↔ r.toNat ≤ c.maxSym := decide_eq_true_iff
  simp only [symbolsInRange, Bool.and_eq_true, h]

end Sys2Proof.Machine
end

