-- ==== Sys2Proof/Tests/Slice0.lean ====
section
/-! SUPPORT. Sys2Proof/Tests/Slice0.lean: tests whose expected results come from the spec's own examples (the
source is named at each), and for every statement with hypotheses a witness that meets them. -/

namespace Sys2Proof.Tests

open Sys2Proof.Machine Sys2Proof.Claims

/-! ## Well-formedness: what each check refuses (R65) -/

theorem test_wellFormed_refuses_illegal_nop_word : ¬WellFormed (.illegal 0x00000000#32) := by decide
theorem test_wellFormed_refuses_illegal_reset_word : ¬WellFormed (.illegal 0x00000002#32) := by decide
theorem test_wellFormed_refuses_illegal_feed_word : ¬WellFormed (.illegal 0x00FFFF01#32) := by decide
theorem test_wellFormed_accepts_illegal_word : WellFormed (.illegal 0x01000001#32) := by decide

/-! ## Decoding: words written out from the fields of R60 -/

/-- NOP: OPC 0 (R64). -/
theorem test_decode_nop : decode 0b00000000_00000000_00000000_0000_0000#32 = .nop := by decide
/-- FEED 3, 12: OPC 1, SYM0 3, SYM1 12 (R69). -/
theorem test_decode_feed : decode 0b00000000_00001100_00000011_0000_0001#32 = .feed 3#8 12#8 := by decide
/-- RESET: OPC 2 (R64). -/
theorem test_decode_reset : decode 0b00000000_00000000_00000000_0000_0010#32 = .reset := by decide
/-- RSV0 nonzero beside FEED's opcode (R166). -/
theorem test_decode_illegal_rsv0 :
    decode 0b00000000_00000000_00000000_0001_0001#32 = .illegal 0x00000011#32 := by decide
/-- RESET with SYM0 nonzero (R166). -/
theorem test_decode_illegal_sym0 : decode 0x00000102#32 = .illegal 0x00000102#32 := by decide
/-- FEED's opcode with RSV1 = 0x80 (C1 of 95_test_vectors.md). -/
theorem test_decode_illegal_rsv1 : decode 0x80000001#32 = .illegal 0x80000001#32 := by decide
/-- FEED 15, 0 over a byte link is 01 0F 00 00 (C3 of 95_test_vectors.md). -/
theorem test_bytes_of_feed : bytesOfWord (encode (.feed 15#8 0#8)) = [0x01#8, 0x0F#8, 0x00#8, 0x00#8] := by
  decide
theorem test_decodeBytes_truncated : decodeBytes [0x01#8, 0x0F#8, 0x00#8] = .error .truncated := by rfl
/-- The table's FEED row, with an operand of 15. -/
theorem test_decodeTableWord_feed : decodeTableWord 32 0x00000F01 = some (.feed 15#8 0#8) := by decide

/-! ## Assembler (R70 to R72) -/

/-- `FEEDCH f, 0` is FEED 15, 0, and `g` is 16 (E9 of 95_test_vectors.md). -/
theorem test_assemble_feedch : assembleLine Config.resetParameters "FEEDCH f, 0".toList = .command (.feed 15#8 0#8) ∧
    assembleLine Config.resetParameters "FEEDCH g, 0".toList = .command (.feed 16#8 0#8) := by decide
theorem test_assemble_feedch_outside_alphabet :
    assembleLine Config.resetParameters "FEEDCH w, 0".toList = .error := by decide
/-- With B = 4, `FEEDH 1, 0` is FEED 15, 0 (R72). -/
theorem test_assemble_feedh : assembleLine Config.resetParameters "feedh 1, 0".toList = .command (.feed 15#8 0#8) := by
  decide
theorem test_assemble_feed : assembleLine Config.resetParameters "FEED 0x0F, 255 ; comment".toList =
    .command (.feed 15#8 255#8) := by decide
theorem test_assemble_operand_too_large : assembleLine Config.resetParameters "FEED 256, 0".toList = .error := by
  decide
theorem test_assemble_nop_reset : assembleLine Config.resetParameters "nop".toList = .command .nop ∧
    assembleLine Config.resetParameters "Reset".toList = .command .reset := by decide

/-! ## Configurations (CFG1 and CFG2 of 95_test_vectors.md) -/

/-- The (7,5) code of section 8, with its default sentinel and least register width. -/
def code75 (b d : Nat) : Cfg :=
  { K := 3, G0 := 7, G1 := 5, B := b, D := d, S := 2 * (2 * (2 ^ b - 1)) + 1, PM_W := 7 }

theorem test_config_accepted : configValid (code75 4 3) = true := by decide
theorem test_config_refuses_K : configValid { code75 4 3 with K := 1, G0 := 1, G1 := 1 } = false := by decide
theorem test_config_refuses_degree : configValid { code75 4 3 with G0 := 8 } = false := by decide
theorem test_config_refuses_degree_G1 : configValid { code75 4 3 with G1 := 8 } = false := by decide
theorem test_config_refuses_B_0 : configValid { code75 4 3 with B := 0 } = false := by decide
theorem test_config_refuses_B_9 : configValid { code75 4 3 with B := 9, S := 5000, PM_W := 20 } = false := by decide
theorem test_config_refuses_D_0 : configValid { code75 4 3 with D := 0 } = false := by decide
theorem test_config_refuses_S_60 : configValid { code75 4 3 with S := 60 } = false := by decide
theorem test_config_refuses_PM_W_6 : configValid { code75 4 3 with PM_W := 6 } = false := by decide
theorem test_config_accepts_zero_generator : configValid { code75 4 3 with G0 := 0 } = true := by decide
theorem test_config_accepts_equal_generators : configValid { code75 4 3 with G1 := 7 } = true := by decide
/-- The row K = 7, B = 8 of CFG2. -/
theorem test_derived_constants :
    let c : Cfg := { K := 7, G0 := 1, G1 := 1, B := 8, D := 5, S := 3061, PM_W := 13 }
    c.maxSym = 255 ∧ c.bmMax = 510 ∧ defaultSentinel c = 3061 ∧ pmWidthMin c = 13 := by decide
/-- `WP_W` is 0 for D = 1, and ceil(log2 D) else (R14). -/
theorem test_cursor_width : [1, 2, 3, 4, 5, 15].map (fun d => cursorWidth (code75 4 d)) = [0, 1, 2, 2, 3, 4] := by
  decide

/-! ## Trellis (T2, T3, T5, T6 of 95_test_vectors.md) -/

theorem test_trellis_T2 : buildTrellis { code75 2 2 with G0 := 6, G1 := 3 } =
    { next := [0, 1, 2, 3, 0, 1, 2, 3]
      out := [⟨false, false⟩, ⟨false, true⟩, ⟨true, true⟩, ⟨true, false⟩,
        ⟨true, false⟩, ⟨true, true⟩, ⟨false, true⟩, ⟨false, false⟩] } := by decide
theorem test_trellis_T3 : buildTrellis { code75 1 1 with K := 2, G0 := 3, G1 := 1 } =
    { next := [0, 1, 0, 1], out := [⟨false, false⟩, ⟨true, true⟩, ⟨true, false⟩, ⟨false, true⟩] } := by decide
theorem test_predecessors_T5 : plo 5 = 2 ∧ phi { code75 4 3 with K := 4 } 5 = 6 ∧ inputBit 5 = true := by decide
theorem test_zero_generator_T6 :
    (buildTrellis { code75 4 3 with G0 := 0 }).out.all (fun l => !l.o0) = true := by decide
/-- The encoder's pairs of program P4 (T3's code). -/
theorem test_encoder_P4 : encodeBits { code75 1 1 with K := 2, G0 := 3, G1 := 1 } [true, true, false, true] =
    [⟨true, true⟩, ⟨false, true⟩, ⟨true, false⟩, ⟨true, true⟩] := by decide

/-! ## Branch metrics (BM1 of 95_test_vectors.md) -/

theorem test_branch_metric_3_12 :
    [⟨false, false⟩, ⟨false, true⟩, ⟨true, false⟩, ⟨true, true⟩].map (branchMetric (code75 4 3) 3 12) =
      [15, 6, 24, 15] := by decide
theorem test_branch_metric_7_8 :
    [⟨false, false⟩, ⟨false, true⟩, ⟨true, false⟩, ⟨true, true⟩].map (branchMetric (code75 4 3) 7 8) =
      [15, 14, 16, 15] := by decide

/-! ## One command on a small state -/

/-- A state between commands of an instance of configuration `c`. -/
def between (c : Cfg) (pm : List Nat) (sm : Memory) (wptr pcnt : Nat) : State :=
  { builtState c with pm := pm, sm := sm, wptr := wptr, pcnt := pcnt }

/-- A slot of survivors. -/
def slot (row : List (Nat × Bool)) : List Entry := row.map fun r => some ⟨r.1, r.2⟩

/-- Two views of an outcome: the state it leads to, and the last response. -/
def stateOf (o : Host.Outcome State Fault Refusal) : Option State :=
  match o with
  | .next t => some t
  | .fault _ => none
  | .refused _ => none
def lastWord (t : State) : Option Word := t.output.getLast?

/-- FEED 15, 15 right after building (A1 of 95_test_vectors.md, R161's example). -/
theorem test_feed_first :
    (stateOf (exec (.feed 15#8 15#8) (builtState (code75 4 3)))).map
        (fun t => (t.pm, t.sm.getD 0 [], t.wptr, t.pcnt, lastWord t)) =
      some ([30, 0, 76, 76], slot [(0, false), (0, true), (1, false), (1, true)], 1, 1, some 0x00000000#32) := by
  decide

/-- The state before FEED 4 of program P1. -/
def beforeP1Feed4 : State :=
  between (code75 4 3) [30, 0, 45, 45]
    [slot [(0, false), (0, true), (1, false), (1, true)], slot [(0, false), (0, true), (1, false), (1, true)],
      slot [(2, false), (2, true), (3, false), (3, true)]] 0 3

/-- FEED 4 of program P1, the first with a traceback (TB1). -/
theorem test_feed_primed :
    (stateOf (exec (.feed 0#8 15#8) beforeP1Feed4)).map
        (fun t => (t.pm, t.sm.getD 0 [], t.wptr, t.pcnt, lastWord t)) =
      some ([45, 45, 30, 0], slot [(0, false), (0, true), (1, false), (1, true)], 1, 3, some 0x00000003#32) := by
  decide

/-- The state before FEED 5 of vector A2, where FEED 4 broke two ties. -/
def beforeA2Feed5 : State :=
  between (code75 2 3) [0, 0, 0, 1]
    [slot [(0, false), (0, true), (1, false), (3, true)], slot [(0, false), (2, true), (3, false), (3, true)],
      slot [(0, false), (2, true), (3, false), (3, true)]] 1 3

/-- Ties go to the lower predecessor: FEED 4 of A2, from the metrics before it. -/
theorem test_acs_tie : (acsStep (code75 2 3) [0, 1, 0, 2]
      (bmVector (code75 2 3) (buildTrellis (code75 2 3)) 2 1)).map (fun e => (e.metric, e.survivor.pred)) =
    [(3, 0), (3, 0), (3, 1), (4, 3)] := by decide

/-- The metrics after FEED 5 of A2. -/
theorem test_normalization :
    (stateOf (exec (.feed 1#8 0#8) beforeA2Feed5)).map (fun t => t.pm) = some [0, 0, 1, 2] := by decide

/-- FEED 4 of vector TB-TIE: three states share the least metric, and the walk starts at state 0. -/
theorem test_traceback_tie :
    (stateOf (exec (.feed 0#8 0#8) (between (code75 1 2) [0, 0, 0, 1]
        [slot [(0, false), (0, true), (3, false), (1, true)], slot [(0, false), (2, true), (1, false), (1, true)]]
        1 2))).bind lastWord = some 0x00000001#32 := by decide

/-- FEED 16, 0 with B = 4 (BM3). -/
theorem test_feed_invalid_symbol :
    exec (.feed 16#8 0#8) beforeP1Feed4 = .next { beforeP1Feed4 with output := [0x00000004#32] } := rfl

/-- A traceback into an unwritten entry sets MODEL_FAULT and writes nothing else (R18, R217). -/
theorem test_feed_model_fault :
    let s := between (code75 4 1) [0, 61, 61, 61] [[none, none, none, none]] 0 1
    (stateOf (exec (.feed 0#8 0#8) s)).map (fun t => { t with output := [] }) = some { s with modelFault := true } := by
  decide

/-- RESET (row 9 of program P3). -/
theorem test_reset :
    exec .reset (between (code75 1 2) [3, 3, 2, 0] [slot [(0, false)], slot [(1, true)]] 1 2) =
      .next { builtState (code75 1 2) with output := [0x00000000#32] } := rfl

theorem test_nop : exec .nop beforeP1Feed4 = .next { beforeP1Feed4 with output := [0x00000000#32] } := rfl

theorem test_illegal :
    exec (.illegal 0x0000000F#32) beforeP1Feed4 = .next { beforeP1Feed4 with output := [0x00000008#32] } := rfl

/-- The instance of R80's example is built and takes a command as its first step. -/
theorem test_reset_runs_a_word :
    (stateOf (step (State.reset.withFetchWord 32 0x000F0F01))).map (fun t => (t.pm, t.input, t.output)) =
      some ([30, 0, 76, 76], [], [0x00000000#32]) := by decide

/-! ## Witnesses: a state and operands that meet the hypotheses of each statement -/

/-- The smallest instance: two states, one slot. -/
def tiny : Cfg := { K := 2, G0 := 3, G1 := 1, B := 1, D := 1, S := 3, PM_W := 3 }

theorem witness_valid : configValid tiny = true ∧ configValid (code75 4 3) = true := by decide

/-- No instance: `K < 2`. -/
theorem witness_invalid : configValid { tiny with K := 1 } = false ∧
    configValid (builtState { tiny with K := 1 }).cfg = false := by decide

/-- A primed instance meets the invariant. -/
theorem witness_inv_primed : beforeP1Feed4.Inv where
  config := by decide
  tables := by decide
  metrics := by decide
  normalized := by decide
  memory := by decide
  cursor := by decide
  count := by decide
  priming := by decide
  fill := by decide
  entries := by decide
  noFault := by decide

/-- The state after FEED 2 of program P1, still priming. -/
def beforeP1Feed3 : State :=
  between (code75 4 3) [45, 45, 0, 30]
    [slot [(0, false), (0, true), (1, false), (1, true)], slot [(0, false), (0, true), (1, false), (1, true)],
      [none, none, none, none]] 2 2

theorem witness_inv_priming : beforeP1Feed3.Inv where
  config := by decide
  tables := by decide
  metrics := by decide
  normalized := by decide
  memory := by decide
  cursor := by decide
  count := by decide
  priming := by decide
  fill := by decide
  entries := by decide
  noFault := by decide

theorem witness_inv_presented : ({ beforeP1Feed3 with input := [0x00000001#32] } : State).Inv :=
  { witness_inv_priming with }

theorem witness_DecodeOfEncodeIsTheCommand :
    WellFormed .nop ∧ WellFormed (.feed 0#8 255#8) ∧ WellFormed .reset ∧ WellFormed (.illegal 0xFFFFFFFF#32) := by
  decide

theorem witness_FeedOperandsAreTheZeroExtendedFields :
    decode 0x00FF0001#32 = .feed 0#8 255#8 ∧ (0 < 256 ∧ 255 < 256) := by decide

theorem witness_AssemblerReadsFeedLines :
    ['F', 'e', 'e', 'd'].map upperChar = ['F', 'E', 'E', 'D'] ∧
      (∀ ch ∈ ['2', '5', '5'] ++ ['0', 'x', '0'], 0x20 < ch.toNat ∧ ch ≠ ',' ∧ ch ≠ ';') := by
  refine ⟨by decide, ?_⟩
  simp

theorem witness_AssemblerReadsFeedLines_digits :
    (∀ d ∈ ([0, 9] : List Nat), d < 10) ∧ (∀ d ∈ ([0, 15] : List Nat), d < 16) := by decide

theorem witness_AssemblerReadsTheOtherCommandLines :
    ['n', 'O', 'p'].map upperChar = ['N', 'O', 'P'] ∧
      ['r', 'E', 's', 'e', 't'].map upperChar = ['R', 'E', 'S', 'E', 'T'] ∧
      ['f', 'e', 'e', 'd', 'C', 'h'].map upperChar = ['F', 'E', 'E', 'D', 'C', 'H'] ∧
      ['F', 'e', 'E', 'd', 'h'].map upperChar = ['F', 'E', 'E', 'D', 'H'] := by decide

/-- The ends of the alphabet, and operands outside it: `w`, and `10`, which is no single character. -/
theorem witness_AssemblerReadsTheOtherCommandLines_feedch :
    (∀ ch ∈ ['v', '0'] ++ ['w', '1', '0'], 0x20 < ch.toNat ∧ ch ≠ ',' ∧ ch ≠ ';') ∧
      symbolOfChar 'v' = some 31 ∧ symbolOfChar '0' = some 0 ∧
      (∀ c0 v0, ['1', '0'] = [c0] → symbolOfChar c0 ≠ some v0) ∧
      (∀ c1 v1, ['w'] = [c1] → symbolOfChar c1 ≠ some v1) := by
  refine ⟨by simp, by decide, by decide, by simp, ?_⟩
  rintro c1 v1 ⟨⟩
  have h : symbolOfChar 'w' = none := by decide
  simp [h]

/-- Both hard values, and operands that are none: `2`, and `0x1` by log entry 14. -/
theorem witness_AssemblerReadsTheOtherCommandLines_feedh :
    ['1'] = [if true then '1' else '0'] ∧ ['0'] = [if false then '1' else '0'] ∧
      ['2'] ∉ [['0'], ['1']] ∧ ['0', 'x', '1'] ∉ [['0'], ['1']] ∧
      (∀ ch ∈ ['0', 'x', '1'] ++ ['2'], 0x20 < ch.toNat ∧ ch ≠ ',' ∧ ch ≠ ';') := by simp

theorem witness_StepPerformsThePresentedCommand :
    configValid (present 0x00000001#32 beforeP1Feed4).cfg = true ∧
      (present 0x00000001#32 beforeP1Feed4).input = 0x00000001#32 :: [] ∧
      WellFormed (.feed 15#8 0#8) ∧ decodeTableWord 32 2 = some .reset := by decide

theorem witness_StepWithoutCommandHoldsTheState :
    configValid beforeP1Feed4.cfg = true ∧ beforeP1Feed4.input = [] := by decide

theorem witness_EveryPresentedCommandCompletes :
    ∃ s : State, s.Inv ∧ s.input = 0x00000001#32 :: [] :=
  ⟨_, witness_inv_presented, rfl⟩

theorem witness_EveryResponseWordHasTheFieldsOfTheEncoding :
    ∃ t, exec (.feed 0#8 15#8) beforeP1Feed4 = .next t ∧ t.output = [0x00000003#32] :=
  ⟨_, rfl, by decide⟩

theorem witness_InstancesAreBuiltExactlyForValidConfigurations :
    buildInstance tiny = .ok (builtState tiny) ∧ buildInstance { tiny with S := 2 } = .error .invalidCodeConfig := by
  decide

theorem witness_GeneratorsOfDegreeKAreRefused :
    configValid tiny = true ∧ (∃ i, tiny.K ≤ i ∧ Nat.testBit 4 i = true) ∧
      (∀ i, tiny.K ≤ i → Nat.testBit 3 i = false) :=
  ⟨by decide, ⟨2, by decide, by decide⟩, fun i hi =>
    Nat.testBit_lt_two_pow (lt_of_lt_of_le (by decide) (Nat.pow_le_pow_right (by decide) hi))⟩

theorem witness_state_indices :
    configValid (code75 4 3) = true ∧ 0 < (code75 4 3).N ∧ 3 < (code75 4 3).N := by decide

theorem witness_OnlyFeedAndResetWriteStorage :
    ∃ t, exec .reset beforeP1Feed4 = .next t ∧ t.pm ≠ beforeP1Feed4.pm :=
  ⟨_, rfl, by decide⟩

theorem witness_BranchMetricIsTheSumOfUnsignedTerms :
    0 ≤ (code75 4 3).maxSym ∧ 15 ≤ (code75 4 3).maxSym := by decide

theorem witness_BranchMetricIsMonotonic :
    14 ≤ (code75 4 3).maxSym ∧ 15 ≤ (code75 4 3).maxSym ∧ 0 ≤ (code75 4 3).maxSym ∧ 14 ≤ 15 := by decide

theorem witness_HardDecisionMetricIsTheHammingDistance : (code75 1 2).B = 1 := rfl

theorem witness_BranchMetricVectorHoldsTheMetricOfEveryLabel : beforeP1Feed4.Inv ∧ 3 < beforeP1Feed4.cfg.N :=
  ⟨witness_inv_primed, by decide⟩

theorem witness_AcsSelectsTheLowerCandidateLowStateOnTies :
    configValid (code75 4 3) = true ∧ [0, 61, 61, 61].length = (code75 4 3).N ∧
      [30, 0, 15, 15, 0, 30, 15, 15].length = 2 * (code75 4 3).N ∧ 3 < (code75 4 3).N := by decide

theorem witness_FeedWhilePrimingAnswersNoOutput :
    beforeP1Feed3.Inv ∧ beforeP1Feed3.pcnt < beforeP1Feed3.cfg.D ∧ (15#8).toNat < 2 ^ beforeP1Feed3.cfg.B :=
  ⟨witness_inv_priming, by decide, by decide⟩

theorem witness_FeedWhenPrimedAnswersTheTracedBit :
    beforeP1Feed4.Inv ∧ beforeP1Feed4.pcnt = beforeP1Feed4.cfg.D ∧ (15#8).toNat < 2 ^ beforeP1Feed4.cfg.B :=
  ⟨witness_inv_primed, by decide, by decide⟩

theorem witness_FeedRejectsSymbolsAboveTheMaximum :
    2 ^ beforeP1Feed4.cfg.B - 1 < (16#8).toNat ∧ ¬2 ^ beforeP1Feed4.cfg.B - 1 < (15#8).toNat := by decide

theorem witness_FeedIntoBottomSetsModelFaultAlone :
    let s := between tiny [0, 3] [[none, none]] 0 1
    s.shaped = true ∧ s.pcnt = s.cfg.D ∧ (1#8).toNat < 2 ^ s.cfg.B ∧ TracesIntoBottom s :=
  ⟨by decide, rfl, by decide, fun _ => 0, 0, by decide, ⟨by decide, by decide, by decide⟩, by decide, by decide⟩

/-- PM short by an entry, PM and SM longer by one, and WPTR = D; each stops FEED. A built instance does not. -/
theorem witness_FeedStopsOnlyInStatesThatAreNotShaped :
    (between tiny [0] [[none, none]] 0 0).shaped = false ∧
      (between tiny [0, 3, 3] [[none, none]] 0 0).shaped = false ∧
      (between tiny [0, 3] [[none, none], [none, none]] 0 0).shaped = false ∧
      (between tiny [0, 3] [[none, none]] 1 0).shaped = false ∧ (1#8).toNat < 2 ^ tiny.B ∧
      (builtState tiny).shaped = true ∧
      exec (.feed 1#8 1#8) (between tiny [0, 3] [[none, none]] 1 0) = .fault .indexOutOfRange :=
  ⟨by decide, by decide, by decide, by decide, by decide, by decide, rfl⟩

theorem witness_ErrorsAreReportedDecodeFirstAndOnce :
    configValid beforeP1Feed4.cfg = true ∧ 3 ≤ (opc 0x01001003#32).toNat ∧
      opc 0x00001001#32 = 0x1#4 ∧ rsv0 0x00001001#32 = 0#4 ∧ rsv1 0x00001001#32 = 0#8 ∧
      2 ^ beforeP1Feed4.cfg.B ≤ (sym0 0x00001001#32).toNat ∧
      2 ^ beforeP1Feed4.cfg.B ≤ (sym1 0x00100001#32).toNat := by decide

/-- The other words of the first clause: RSV0, RSV1, and NOP and RESET with a symbol field. -/
theorem witness_ErrorsAreReportedDecodeFirstAndOnce_fields :
    rsv0 0x00001011#32 ≠ 0#4 ∧ rsv1 0x01001001#32 ≠ 0#8 ∧
      (opc 0x00000100#32 ≠ 0x1#4 ∧ sym0 0x00000100#32 ≠ 0#8) ∧
      (opc 0x00010002#32 ≠ 0x1#4 ∧ sym1 0x00010002#32 ≠ 0#8) := by decide

/-- A response with ERR = 0b01. -/
theorem witness_ErrorsAreReportedDecodeFirstAndOnce_symbol :
    ∃ t, exec (.feed 16#8 0#8) beforeP1Feed4 = .next t ∧ t.output = [0x00000004#32] ∧
      errOf 0x00000004#32 = 0b01#2 :=
  ⟨_, rfl, by decide, by decide⟩

theorem witness_BuiltInstancesAreInTheResetState : buildInstance (code75 4 3) = .ok (builtState (code75 4 3)) := by
  decide

theorem witness_EveryStepKeepsTheInvariant :
    ∃ s t : State, s.Inv ∧ step s = .next t ∧ t.pcnt = 3 :=
  ⟨_, _, witness_inv_presented, rfl, by decide⟩

theorem witness_OutputBeginsAtFeedDPlusOne :
    configValid tiny = true ∧ symbolsInRange tiny 1#8 1#8 = true ∧ cyclesFrom tiny 0 [] < tiny.D ∧
      tiny.D ≤ cyclesFrom tiny 0 [0x00010101#32] := by decide

theorem witness_CommandsWithoutEffectAreTransparent :
    beforeP1Feed4.Inv ∧ decode 0x00000000#32 = .nop ∧ decode 0x00000003#32 = .illegal 0x00000003#32 ∧
      (decode 0x00001001#32 = .feed 16#8 0#8 ∧ symbolsInRange beforeP1Feed4.cfg 16#8 0#8 = false) :=
  ⟨witness_inv_primed, by decide, by decide, by decide, by decide⟩

theorem witness_StartingCursorIsUnobservable : configValid (code75 4 3) = true ∧ 2 < (code75 4 3).D := by decide

theorem witness_RingDecodesLikeTheUnboundedHistory :
    configValid tiny = true ∧ legalPairs tiny [(1#8, 1#8), (0#8, 1#8)] = true := by decide

/-- After one FEED of a K = 3 instance, state 1 is reachable and state 2 is not. -/
theorem witness_PathMetricsAreTheLeastOverAllInputSequences :
    legalPairs (code75 4 3) [(15#8, 15#8)] = true ∧ reachableAt (code75 4 3) 1 1 ∧ ¬reachableAt (code75 4 3) 1 2 :=
  ⟨by decide, ⟨by decide, by decide⟩, fun h => absurd (h.2 (by decide)) (by decide)⟩

theorem witness_MetricsStayWithinTheRegisterWidth :
    configValid tiny = true ∧ symbolsInRange tiny 1#8 0#8 = true ∧
      tiny.K - 1 ≤ cyclesFrom tiny 0 [0x00010101#32] := by decide

theorem witness_ResponsesDoNotDependOnTheSentinel :
    configValid (code75 4 3) = true ∧ configValid { code75 4 3 with S := 1000, PM_W := 11 } = true := by decide

theorem witness_DecodedBitLiesOnALeastMetricSequence :
    configValid tiny = true ∧ legalPairs tiny [(1#8, 1#8)] = true ∧ symbolsInRange tiny 0#8 1#8 = true ∧
      tiny.D ≤ [(1#8, 1#8)].length := by decide

/-- Two noisy pairs of the (7,5) code: the ideal pairs of the bits 1, 0 are (15, 15) and (15, 0). -/
theorem witness_RoundTripSurvivesBoundedNoise :
    configValid (code75 4 3) = true ∧ (code75 4 3).G0.testBit 0 = true ∧ 2 * 2 < (code75 4 3).maxSym ∧
      legalPairs (code75 4 3) [(14#8, 15#8), (13#8, 2#8)] = true ∧
      List.Forall₂ (fun (r : Byte × Byte) (l : Label) =>
        symbolDistance (code75 4 3) (symbolOperand r.1) l.o0 ≤ 2 ∧
          symbolDistance (code75 4 3) (symbolOperand r.2) l.o1 ≤ 2)
        [(14#8, 15#8), (13#8, 2#8)] (encodeBits (code75 4 3) [true, false]) :=
  ⟨by decide, by decide, by decide, by decide,
    .cons ⟨by decide, by decide⟩ (.cons ⟨by decide, by decide⟩ .nil)⟩

theorem witness_RunsOfLegalCommandsAreGood :
    configValid tiny = true ∧ decode 0x00000000#32 = .nop ∧ decode 0x00000002#32 = .reset ∧
      (decode 0x00010101#32 = .feed 1#8 1#8 ∧ symbolsInRange tiny 1#8 1#8 = true) := by decide

end Sys2Proof.Tests
end

section
/-! What every run rests on: a step performs the presented word, and the invariant of Sys2Proof/Safety.lean holds of
a built decoder, after RESET and after a FEED cycle. -/

namespace Sys2Proof.Machine

/-! ## Presenting a word (R160) -/

/-- The word of a FEED decodes to that FEED (R63, R66). -/
theorem decode_encode_feed (r0 r1 : Byte) : decode (encode (.feed r0 r1)) = .feed r0 r1 := by
  have hpat : packCommand 0x1#4 r0 r1 &&& 0xFF0000FF#32 = 0x00000001#32 :=
    (feedPattern_iff _).mpr ⟨opc_packCommand .., rsv0_packCommand .., rsv1_packCommand ..⟩
  have hne : packCommand 0x1#4 r0 r1 ≠ 0x00000000#32 := fun h => by rw [h] at hpat; exact absurd hpat (by decide)
  simp [decode, encode, hpat, hne, sym0_packCommand, sym1_packCommand]

/-- A step of a valid decoder performs the word presented to it (R160). -/
theorem step_present {s : State} (w : Word) (hv : configValid s.cfg = true) :
    step (present w s) = exec (decode w) s := by
  simp [step, acceptsCommands, presented, present, hv]

/-! ## Minima and the ring -/

/-- Normalization leaves a least metric of 0 (R124). -/
theorem minMetric_normalize {v : List Nat} (h : v ≠ []) : minMetric (normalize v) = 0 := by
  have hmem : 0 ∈ normalize v := List.mem_map.mpr ⟨minMetric v, minMetric_mem h, Nat.sub_self _⟩
  exact Nat.le_zero.mp (minMetric_le hmem)

/-- The least metric after reset is 0, that of state 0 (R37, R124). -/
theorem minMetric_resetPM (c : Cfg) : minMetric (resetPM c) = 0 :=
  Nat.le_zero.mp (minMetric_le List.mem_cons_self)

theorem resetPM_length (c : Cfg) : (resetPM c).length = c.N := by
  have := N_pos c
  simp [resetPM]
  omega

/-- The start of the traceback is a state index (R141). -/
theorem argminLow_lt_length {v : List Nat} (h : v ≠ []) : argminLow v < v.length :=
  List.idxOf_lt_length_of_mem (minMetric_mem h)

/-! ## The invariant -/

/-- A FEED with legal symbols completes where the invariant holds (R41). -/
theorem State.Inv.shaped {s : State} (h : s.Inv) : s.shaped = true := by
  simp [State.shaped, h.tables, h.metrics, h.memory, h.cursor]

theorem State.Inv.pm_ne_nil {s : State} (h : s.Inv) : s.pm ≠ [] :=
  List.ne_nil_of_length_pos (h.metrics ▸ N_pos s.cfg)

/-- The traceback of a decoder starts at one of its states (R141). -/
theorem State.Inv.argminLow_lt {s : State} (h : s.Inv) : argminLow s.pm < s.cfg.N :=
  h.metrics ▸ argminLow_lt_length h.pm_ne_nil

/-- An answer is no part of the invariant. -/
theorem State.Inv.respond_inv {s : State} (h : s.Inv) (r : Response) : (s.respond r).Inv := { h with }

/-- A built decoder meets the invariant (R37). -/
theorem builtState_inv {c : Cfg} (hc : configValid c = true) : (builtState c).Inv := by
  have hD : 1 ≤ c.D := ((configValid_iff c).mp hc).2.2.2.2.2.1
  exact
    { config := hc
      tables := rfl
      metrics := resetPM_length c
      normalized := minMetric_resetPM c
      memory := smWf_reset c
      cursor := hD
      count := Nat.zero_le _
      priming := fun _ => rfl
      fill := fun j _ d _ => by simp [smRead_reset]; omega
      entries := fun j _ d _ e he => by simp [smRead_reset] at he
      noFault := rfl }

/-- RESET makes a built decoder of what meets the invariant (R164, R220). -/
theorem State.Inv.resetWrites_inv {s : State} (h : s.Inv) : (resetWrites s).Inv := by
  have hs : resetWrites s = { builtState s.cfg with input := s.input, output := s.output } := by
    simp [resetWrites, builtState, h.tables, h.noFault]
  rw [hs]
  exact { builtState_inv h.config with }

/-! ## The traceback of a primed decoder (R141, R145) -/

/-- A primed decoder has every entry, and each leads to a state index (R29, R148). -/
theorem State.Inv.entry {s : State} (h : s.Inv) (hp : s.pcnt = s.cfg.D) {j d : Nat} (hj : j < s.cfg.D)
    (hd : d < s.cfg.N) : ∃ e, smRead s.sm j d = some e ∧ e.pred < s.cfg.N := by
  obtain ⟨e, he⟩ := Option.isSome_iff_exists.mp ((h.fill j hj d hd).mpr (.inl hp))
  have hK := ((configValid_iff s.cfg).mp h.config).1
  refine ⟨e, he, ?_⟩
  rcases (h.entries j hj d hd e he).2 with hpred | hpred
  · exact hpred ▸ plo_lt s.cfg d hd
  · exact hpred ▸ phi_lt s.cfg d hK hd

/-- So no walk over a primed memory reads bottom (R145). -/
theorem State.Inv.walkBack_some {s : State} (h : s.Inv) (hp : s.pcnt = s.cfg.D) (n : Nat) :
    ∀ (j : Nat) {d : Nat}, d < s.cfg.N → ∃ b, walkBack s.cfg.D s.sm n j d = some b := by
  induction n with
  | zero =>
    intro j d hd
    obtain ⟨e, he, -⟩ := h.entry hp (prevSlot_lt (h.cursor.pos) j) hd
    exact ⟨e.bit, by simp [walkBack, he]⟩
  | succ n ih =>
    intro j d hd
    obtain ⟨e, he, hpred⟩ := h.entry hp (prevSlot_lt (h.cursor.pos) j) hd
    obtain ⟨b, hb⟩ := ih (prevSlot s.cfg.D j) hpred
    exact ⟨b, by simp [walkBack, he, hb]⟩

/-- FEED answers no output while priming (R143). -/
theorem feedOutput_priming {s : State} (hp : s.pcnt < s.cfg.D) : feedOutput s = some none := by
  simp [feedOutput, hp.ne]

/-- A primed FEED answers the bit of its traceback (R141, R143). -/
theorem State.Inv.feedOutput_primed {s : State} (h : s.Inv) (hp : s.pcnt = s.cfg.D) :
    ∃ b, traceback s = some b ∧ feedOutput s = some (some b) := by
  obtain ⟨b, hb⟩ : ∃ b, traceback s = some b := h.walkBack_some hp _ _ h.argminLow_lt
  exact ⟨b, hb, by simp [feedOutput, hp, hb]⟩

/-- A FEED cycle never raises MODEL_FAULT (R145): it writes its results and answers. -/
theorem State.Inv.feedCycle_eq {s : State} (h : s.Inv) (r0 r1 : Nat) :
    ∃ out, feedOutput s = some out ∧ feedCycle s r0 r1 = (feedWrites s r0 r1).respond (okResponse out) := by
  rcases feedCycle_cases s r0 r1 with ⟨hnone, -⟩ | hsome
  · rcases h.count.lt_or_eq with hp | hp
    · rw [feedOutput_priming hp] at hnone; cases hnone
    · obtain ⟨b, -, hb⟩ := h.feedOutput_primed hp
      rw [hb] at hnone; cases hnone
  · exact hsome

/-! ## FEED keeps the invariant (R161) -/

/-- NEWPM[d] of a FEED. -/
theorem newMetrics_feedSelections_at {s : State} {d : Nat} (r0 r1 : Nat) (hd : d < s.cfg.N) :
    (newMetrics (feedSelections s r0 r1))[d]? =
      some (select s.cfg s.pm (bmVector s.cfg s.trellis r0 r1) d).metric := by
  simp [newMetrics, feedSelections, acsStep_at _ _ _ _ hd]

/-- SURV[d] of a FEED. -/
theorem survivors_feedSelections_at {s : State} {d : Nat} (r0 r1 : Nat) (hd : d < s.cfg.N) :
    (survivors (feedSelections s r0 r1))[d]? =
      some (select s.cfg s.pm (bmVector s.cfg s.trellis r0 r1) d).survivor := by
  simp [survivors, feedSelections, acsStep_at _ _ _ _ hd]

/-- The recorded slot holds the survivors (R140). -/
theorem State.Inv.smRead_feedWrites_self {s : State} (h : s.Inv) {d : Nat} (r0 r1 : Nat) (hd : d < s.cfg.N) :
    smRead (feedWrites s r0 r1).sm s.wptr d =
      some (select s.cfg s.pm (bmVector s.cfg s.trellis r0 r1) d).survivor := by
  have hlen : s.wptr < s.sm.length := ((smWf_iff _ _).mp h.memory).1 ▸ h.cursor
  rw [feedWrites_sm, smRead_record_self _ _ _ _ hlen, survivors_feedSelections_at r0 r1 hd]

/-- A survivor holds the bit of its destination and one of the two predecessors (R86, R120). -/
theorem select_survivor (c : Cfg) (pm bmv : List Nat) (d : Nat) :
    (select c pm bmv d).survivor.bit = inputBit d ∧
      ((select c pm bmv d).survivor.pred = plo d ∨ (select c pm bmv d).survivor.pred = phi c d) := by
  rcases select_cases c pm bmv d with ⟨-, h⟩ | ⟨-, h⟩ <;> simp [h]

/-- What a FEED writes meets the invariant. -/
theorem State.Inv.feedWrites_inv {s : State} (h : s.Inv) (r0 r1 : Nat) : (feedWrites s r0 r1).Inv where
  config := h.config
  tables := h.tables
  metrics := by simp
  normalized := by
    have := N_pos s.cfg
    exact minMetric_normalize (List.ne_nil_of_length_pos (by simpa using this))
  memory := smWf_record _ _ _ _ h.memory (by simp)
  cursor := nextCursor_lt h.cursor.pos _
  count := nextCount_le _ _
  priming := fun hlt => by
    simp only [feedWrites_pcnt, feedWrites_wptr, feedWrites_cfg, nextCount, nextCursor] at hlt ⊢
    have hw := h.priming (by omega)
    rw [hw, Nat.mod_eq_of_lt (by omega)]
    omega
  fill := fun j hj d hd => by
    simp only [feedWrites_cfg, feedWrites_pcnt, nextCount] at hj hd ⊢
    have hcount := h.count
    have hprime := h.priming
    by_cases hw : j = s.wptr
    · subst hw
      rw [h.smRead_feedWrites_self r0 r1 hd]
      simp only [Option.isSome_some, true_iff]
      omega
    · rw [feedWrites_sm, smRead_record_other _ _ _ _ _ hw, h.fill j hj d hd]
      omega
  entries := fun j hj d hd e he => by
    by_cases hw : j = s.wptr
    · subst hw
      rw [h.smRead_feedWrites_self r0 r1 hd, Option.mem_some_iff] at he
      exact he ▸ select_survivor _ _ _ _
    · rw [feedWrites_sm, smRead_record_other _ _ _ _ _ hw] at he
      exact h.entries j hj d hd e he
  noFault := h.noFault

/-- A FEED cycle keeps the invariant, and moves the cursor and the count (R27, R28). -/
theorem State.Inv.feedCycle_effect {s : State} (h : s.Inv) (r0 r1 : Nat) :
    (feedCycle s r0 r1).Inv ∧ (feedCycle s r0 r1).cfg = s.cfg ∧
      (feedCycle s r0 r1).wptr = nextCursor s.cfg.D s.wptr ∧ (feedCycle s r0 r1).pcnt = nextCount s.cfg.D s.pcnt := by
  obtain ⟨out, -, hc⟩ := h.feedCycle_eq r0 r1
  rw [hc]
  exact ⟨(h.feedWrites_inv r0 r1).respond_inv _, rfl, rfl, rfl⟩

end Sys2Proof.Machine
end

section
/-! WPTR and PCNT follow the cycle index of R19 (R27, R28). -/

namespace Sys2Proof.Machine

/-- A decoder of configuration `c` that has seen `n` FEEDs since its last reset (R19, R27, R28). -/
structure FollowsCycle (c : Cfg) (n : Nat) (s : State) : Prop where
  inv : s.Inv
  cfg : s.cfg = c
  cursor : s.wptr = n % c.D
  count : s.pcnt = min n c.D

theorem builtState_followsCycle {c : Cfg} (hc : configValid c = true) : FollowsCycle c 0 (builtState c) :=
  ⟨builtState_inv hc, rfl, by simp, by simp⟩

/-- A command that only answers does not move the cycle index (R163). -/
theorem FollowsCycle.respond {c : Cfg} {n : Nat} {s : State} (h : FollowsCycle c n s) (r : Response) :
    FollowsCycle c n (s.respond r) :=
  ⟨h.inv.respond_inv r, h.cfg, h.cursor, h.count⟩

/-- A FEED cycle moves it by one (R19, R161). -/
theorem FollowsCycle.afterFeed {c : Cfg} {n : Nat} {s : State} (h : FollowsCycle c n s) (r0 r1 : Nat) :
    FollowsCycle c (n + 1) (feedCycle s r0 r1) := by
  obtain ⟨hinv, hcfg, hw, hp⟩ := h.inv.feedCycle_effect r0 r1
  refine ⟨hinv, hcfg.trans h.cfg, ?_, ?_⟩
  · rw [hw, h.cfg, h.cursor, nextCursor, Nat.mod_add_mod]
  · rw [hp, h.cfg, h.count, nextCount]
    omega

/-- RESET puts it back to 0 (R19, R164). -/
theorem FollowsCycle.afterReset {c : Cfg} {n : Nat} {s : State} (h : FollowsCycle c n s) :
    FollowsCycle c 0 (resetWrites s) :=
  ⟨h.inv.resetWrites_inv, h.cfg, by simp, by simp⟩

/-- Every command completes, and the cycle index goes on as R19 says. -/
theorem FollowsCycle.step_completes {c : Cfg} {n : Nat} {s : State} (h : FollowsCycle c n s) (w : Word) :
    ∃ t m, step (present w s) = .next t ∧ FollowsCycle c m t ∧
      ∀ ws, cyclesFrom c n (w :: ws) = cyclesFrom c m ws := by
  rw [step_present w h.inv.config]
  cases hw : decode w with
  | nop => exact ⟨_, n, rfl, h.respond _, fun ws => by simp [cyclesFrom, hw]⟩
  | reset => exact ⟨_, 0, rfl, h.afterReset.respond _, fun ws => by simp [cyclesFrom, hw]⟩
  | illegal v =>
    exact ⟨_, n, rfl, raise_illegalCommand s ▸ h.respond _, fun ws => by simp [cyclesFrom, hw]⟩
  | feed r0 r1 =>
    cases hr : symbolsInRange s.cfg r0 r1 with
    | true =>
      exact ⟨_, n + 1, execFeed_next hr h.inv.shaped, h.afterFeed _ _,
        fun ws => by simp [cyclesFrom, hw, ← h.cfg, hr]⟩
    | false =>
      exact ⟨s.raise .invalidSymbol, n, by simp [exec, execFeed, hr], raise_invalidSymbol s ▸ h.respond _,
        fun ws => by simp [cyclesFrom, hw, ← h.cfg, hr]⟩

/-- A run of any commands completes and follows the cycle index (R19). -/
theorem FollowsCycle.run {c : Cfg} (ws : List Word) : ∀ {n : Nat} {s : State}, FollowsCycle c n s →
    ∃ t, runCommands s ws = .next t ∧ FollowsCycle c (cyclesFrom c n ws) t := by
  induction ws with
  | nil => exact fun h => ⟨_, rfl, h⟩
  | cons w ws ih =>
    intro n s h
    obtain ⟨t, m, hstep, ht, hcycles⟩ := h.step_completes w
    rw [runCommands_cons hstep, hcycles]
    exact ih ht

/-- Settles O40: the run from the built state follows the cycle index, whose cursor and count are R27's and R28's. -/
theorem cursorAndCountFollowTheCycleIndex : Obligations.CursorAndCountFollowTheCycleIndex := by
  intro c ws hc
  obtain ⟨t, hrun, ht⟩ := FollowsCycle.run ws (builtState_followsCycle hc)
  exact ⟨t, hrun, ht.cursor, ht.count⟩

end Sys2Proof.Machine
end

section
/-! Input sequences through the trellis: where they lead, what they cost, and that the state they start from
matters by less than the sentinel (R12, R125). -/

namespace Sys2Proof.Machine

/-- The transitions into `d` are those of its two predecessors under its input bit (R86). -/
theorem nextState_eq_iff {c : Cfg} {s d : Nat} (b : Bool) (hK : 2 ≤ c.K) (hs : s < c.N) (hd : d < c.N) :
    nextState c s b = d ↔ b = inputBit d ∧ (s = plo d ∨ s = phi c d) := by
  have hN := N_eq_two_mul c hK
  rw [plo_eq, phi_eq c d hK hd, nextState, reg_eq, inputBit]
  generalize 2 ^ (c.K - 2) = half at hN
  have hbit : b = (d % 2 == 1) ↔ b.toNat = d % 2 := by
    rcases Nat.mod_two_eq_zero_or_one d with h | h <;> cases b <;> simp [h]
  have hb := b.toNat_lt
  have hmod : (2 * s + b.toNat) % c.N = if s < half then 2 * s + b.toNat else 2 * s + b.toNat - c.N := by
    split
    · exact Nat.mod_eq_of_lt (by omega)
    · rw [Nat.mod_eq_sub_mod (by omega), Nat.mod_eq_of_lt (by omega)]
  rw [hmod, hbit]
  split <;> omega

/-! ## Extending a sequence by one input -/

theorem encoderState_concat (c : Cfg) (p : Nat) (bits : List Bool) (b : Bool) :
    encoderState c p (bits ++ [b]) = nextState c (encoderState c p bits) b := by
  induction bits generalizing p with
  | nil => rfl
  | cons a bits ih => exact ih (nextState c p a)

theorem encoderState_lt {c : Cfg} {p : Nat} (bits : List Bool) (hp : p < c.N) : encoderState c p bits < c.N := by
  induction bits generalizing p with
  | nil => exact hp
  | cons b bits ih => exact ih (nextState_lt c p b)

/-- The last input adds the metric of the last transition (R125). -/
theorem pathMetric_concat (c : Cfg) (b : Bool) (r : Byte × Byte) :
    ∀ {bits : List Bool} {rs : List (Byte × Byte)} (p : Nat), bits.length = rs.length →
      pathMetric c p (bits ++ [b]) (rs ++ [r]) = pathMetric c p bits rs +
        branchMetric c (symbolOperand r.1) (symbolOperand r.2) (outLabel c (encoderState c p bits) b)
  | [], [], p, _ => by simp [pathMetric, encoderState]
  | a :: bits, q :: rs, p, h => by
    have ih := pathMetric_concat c b r (bits := bits) (rs := rs) (nextState c p a) (by simpa using h)
    simp only [List.cons_append, pathMetric, encoderState, ih]
    omega

/-! ## The start of a sequence -/

/-- A legal symbol is at most MAXSYM away from either hard value (R100). -/
theorem symbolDistance_le {c : Cfg} {r : Nat} (o : Bool) (hr : r ≤ c.maxSym) : symbolDistance c r o ≤ c.maxSym := by
  cases o <;> simp [symbolDistance] <;> omega

/-- The branch metric of legal symbols is at most BMMAX (R100). -/
theorem branchMetric_le {c : Cfg} {r0 r1 : Byte} (l : Label) (h : symbolsInRange c r0 r1 = true) :
    branchMetric c (symbolOperand r0) (symbolOperand r1) l ≤ c.bmMax := by
  obtain ⟨h0, h1⟩ := (symbolsInRange_iff c r0 r1).mp h
  have d0 : symbolDistance c (symbolOperand r0) l.o0 ≤ c.maxSym := symbolDistance_le l.o0 h0
  have d1 : symbolDistance c (symbolOperand r1) l.o1 ≤ c.maxSym := symbolDistance_le l.o1 h1
  rw [branchMetric, Cfg.bmMax]
  omega

/-- States that agree in their lowest `i` bits agree in one more after the same input (R83). -/
theorem nextState_modEq {c : Cfg} {i p q : Nat} (b : Bool) (hi : i < c.K - 1) (h : p ≡ q [MOD 2 ^ i]) :
    nextState c p b ≡ nextState c q b [MOD 2 ^ (i + 1)] := by
  have hdvd : 2 ^ (i + 1) ∣ c.N := pow_dvd_pow 2 hi
  have hreg : reg p b ≡ reg q b [MOD 2 ^ (i + 1)] := by
    rw [reg_eq, reg_eq, pow_succ']
    exact (h.mul_left' 2).add_right _
  exact ((Nat.mod_modEq _ _).of_dvd hdvd).trans (hreg.trans ((Nat.mod_modEq _ _).of_dvd hdvd).symm)

/-- The same inputs from two states that agree in all but `j` bits: the paths merge after `j` steps, so their
metrics differ by at most `j * BMMAX` (R125). -/
theorem pathMetric_le_of_modEq {c : Cfg} : ∀ (bits : List Bool) {rs : List (Byte × Byte)} {i j p q : Nat},
    legalPairs c rs = true → i + j = c.K - 1 → p < c.N → q < c.N → p ≡ q [MOD 2 ^ i] →
    pathMetric c p bits rs ≤ pathMetric c q bits rs + j * c.bmMax
  | [], _, _, _, _, _, _, _, _, _, _ => by simp [pathMetric]
  | _ :: _, [], _, _, _, _, _, _, _, _, _ => by simp [pathMetric]
  | b :: bits, r :: rs, i, 0, p, q, _, hij, hp, hq, h => by
    have hN : 2 ^ i = c.N := by rw [Cfg.N, ← hij, Nat.add_zero]
    rw [hN] at h
    rw [h.eq_of_lt_of_lt hp hq]
    omega
  | b :: bits, r :: rs, i, j + 1, p, q, hl, hij, hp, hq, h => by
    simp only [legalPairs, List.all_cons, Bool.and_eq_true] at hl
    have hstep := branchMetric_le (outLabel c p b) hl.1
    have hrest := pathMetric_le_of_modEq bits (j := j) hl.2 (by omega) (nextState_lt c p b) (nextState_lt c q b)
      (nextState_modEq b (by omega) h)
    rw [pathMetric, pathMetric, Nat.succ_mul]
    omega

/-- PM after reset: the cost that a sequence starts with (R37). -/
theorem resetPM_read {c : Cfg} {p : Nat} (hp : p < c.N) : pmRead (resetPM c) p = if p = 0 then 0 else c.S := by
  cases p with
  | zero => rfl
  | succ p =>
    have hlt : p < c.N - 1 := by omega
    simp [pmRead, resetPM, hlt]

/-- A sequence from another state than 0 costs more than the same inputs from state 0: the sentinel exceeds what
the first `K - 1` transitions can differ by (R12, R80). -/
theorem pathMetric_zero_lt {c : Cfg} {rs : List (Byte × Byte)} {p : Nat} (bits : List Bool)
    (hc : configValid c = true) (hl : legalPairs c rs = true) (hp : p < c.N) (h0 : p ≠ 0) :
    pathMetric c 0 bits rs < pmRead (resetPM c) p + pathMetric c p bits rs := by
  obtain ⟨-, -, -, -, -, -, hS, -⟩ := (configValid_iff c).mp hc
  have hle := pathMetric_le_of_modEq (q := p) bits hl (Nat.zero_add _) (N_pos c) hp (by simp [Nat.modEq_one])
  rw [mul_assoc] at hS
  rw [resetPM_read hp, if_neg h0]
  unfold Cfg.bmMax Cfg.maxSym at hle
  omega

end Sys2Proof.Machine
end

section
/-! What one FEED does to the metric of a state and to the walk from it (R103, R120, R123, R141). -/

namespace Sys2Proof.Machine

/-- BMV[p][b] of a built decoder (R103). -/
theorem bmRead_bmVector {c : Cfg} {p : Nat} (r0 r1 : Nat) (b : Bool) (hp : p < c.N) :
    bmRead (bmVector c (buildTrellis c) r0 r1) p b = branchMetric c r0 r1 (outLabel c p b) := by
  simp [bmRead, bmVector, buildTrellis_out_at c p b hp]

/-- The selected metric is that of the candidate through the survivor's predecessor (R120). -/
theorem select_metric (c : Cfg) (pm bmv : List Nat) (d : Nat) :
    (select c pm bmv d).metric = candidate pm bmv (select c pm bmv d).survivor.pred d := by
  rcases select_cases c pm bmv d with ⟨-, h⟩ | ⟨-, h⟩ <;> rw [h]

/-- No candidate is below the selected metric (R120). -/
theorem select_metric_le {c : Cfg} {p d : Nat} (pm bmv : List Nat) (hp : p = plo d ∨ p = phi c d) :
    (select c pm bmv d).metric ≤ candidate pm bmv p d := by
  rcases select_cases c pm bmv d with ⟨hle, h⟩ | ⟨hlt, h⟩ <;> rcases hp with rfl | rfl <;> rw [h]
  · exact hle
  · exact hlt.le

/-- An entry of a vector is its normalized entry and the offset (R123). -/
theorem pmRead_normalize {v : List Nat} {d x : Nat} (h : v[d]? = some x) :
    pmRead (normalize v) d + minMetric v = x := by
  have hle : minMetric v ≤ x := minMetric_le (List.mem_of_getElem? h)
  simp [pmRead, normalize, h, hle]

/-- The metric after a FEED, its offset added back, is the selected one (R120, R123). -/
theorem pmRead_feedWrites {s : State} {d : Nat} (r : Byte × Byte) (hd : d < s.cfg.N) :
    pmRead (feedWrites s (symbolOperand r.1) (symbolOperand r.2)).pm d + feedOffset s r =
      (select s.cfg s.pm (bmVector s.cfg s.trellis (symbolOperand r.1) (symbolOperand r.2)) d).metric :=
  pmRead_normalize (newMetrics_feedSelections_at _ _ hd)

/-! ## The walk -/

/-- The slot `i + 1` before the cursor (R141). -/
theorem prevSlot_back {depth w i : Nat} (hw : w < depth) (hi : i < depth) :
    prevSlot depth ((w + depth - i) % depth) = (w + depth - (i + 1)) % depth := by
  rw [prevSlot, Nat.add_sub_assoc (by omega), Nat.mod_add_mod]
  rw [show w + depth - i + (depth - 1) = w + depth - (i + 1) + depth by omega, Nat.add_mod_right]

/-- The cursor's slot is none of the `depth - 1` slots before it. -/
theorem back_ne_cursor {depth w i : Nat} (hw : w < depth) (hi : i + 1 < depth) :
    (w + depth - (i + 1)) % depth ≠ w := by
  rcases Nat.lt_or_ge i w with h | h
  · rw [show w + depth - (i + 1) = w - (i + 1) + depth by omega, Nat.add_mod_right, Nat.mod_eq_of_lt (by omega)]
    omega
  · rw [Nat.mod_eq_of_lt (by omega)]
    omega

/-- A walk that begins `i` slots before the cursor and ends before it is back there reads nothing of what is
recorded in the cursor's slot (R42, R141). -/
theorem walkBack_record {depth w : Nat} (sm : Memory) (row : List Survivor) (hw : w < depth) :
    ∀ (n : Nat) {i : Nat} (d : Nat), i + n + 1 < depth →
      walkBack depth (smRecord sm w row) n ((w + depth - i) % depth) d =
        walkBack depth sm n ((w + depth - i) % depth) d
  | 0, i, d, h => by
    rw [walkBack, walkBack, prevSlot_back hw (by omega), smRead_record_other _ _ _ _ _ (back_ne_cursor hw h)]
  | n + 1, i, d, h => by
    rw [walkBack, walkBack, prevSlot_back hw (by omega),
      smRead_record_other _ _ _ _ _ (back_ne_cursor hw (by omega))]
    cases smRead sm ((w + depth - (i + 1)) % depth) d with
    | none => rfl
    | some e => exact walkBack_record sm row hw n e.pred (by omega)

/-- After a FEED, the walk from `d` first reads the survivor just recorded. -/
theorem State.Inv.walkBack_zero_feedWrites {s : State} (h : s.Inv) {d : Nat} (r0 r1 : Nat) (hd : d < s.cfg.N) :
    walkBack s.cfg.D (feedWrites s r0 r1).sm 0 (nextCursor s.cfg.D s.wptr) d = some (inputBit d) := by
  rw [walkBack, prevSlot_nextCursor h.cursor, h.smRead_feedWrites_self r0 r1 hd]
  exact congrArg some (select_survivor ..).1

/-- Then it goes on from the survivor's predecessor as it would have before the FEED. -/
theorem State.Inv.walkBack_succ_feedWrites {s : State} (h : s.Inv) {d n : Nat} (r0 r1 : Nat) (hd : d < s.cfg.N)
    (hn : n + 1 < s.cfg.D) :
    walkBack s.cfg.D (feedWrites s r0 r1).sm (n + 1) (nextCursor s.cfg.D s.wptr) d =
      walkBack s.cfg.D s.sm n s.wptr
        (select s.cfg s.pm (bmVector s.cfg s.trellis r0 r1) d).survivor.pred := by
  have hw : (s.wptr + s.cfg.D - 0) % s.cfg.D = s.wptr := by
    rw [Nat.sub_zero, Nat.add_mod_right, Nat.mod_eq_of_lt h.cursor]
  rw [walkBack, prevSlot_nextCursor h.cursor, h.smRead_feedWrites_self r0 r1 hd]
  have hframe := walkBack_record s.sm (survivors (feedSelections s r0 r1)) h.cursor n (i := 0)
    (select s.cfg s.pm (bmVector s.cfg s.trellis r0 r1) d).survivor.pred (by omega)
  rwa [hw] at hframe

end Sys2Proof.Machine
end

section
/-! The decoder's metrics and survivors are those of least input sequences (R125), and so is the bit it answers. -/

namespace Sys2Proof.Machine

/-- What a sequence from state `p` costs: the metric that reset gives `p`, and its branch metrics (R37, R125). -/
def sequenceCost (c : Cfg) (p : Nat) (bits : List Bool) (rs : List (Byte × Byte)) : Nat :=
  pmRead (resetPM c) p + pathMetric c p bits rs

/-- `bits`, from state `p`, is an input sequence that leads to `d`, costs what PM says of `d`, and whose last inputs
are what the walk from `d` reads. -/
structure State.Realizes (s : State) (past : List (Byte × Byte)) (off d p : Nat) (bits : List Bool) : Prop where
  start : p < s.cfg.N
  length : bits.length = past.length
  leads : encoderState s.cfg p bits = d
  cost : pmRead s.pm d + off = sequenceCost s.cfg p bits past
  walk : ∀ n < s.pcnt, walkBack s.cfg.D s.sm n s.wptr d = bits[past.length - 1 - n]?

/-- The decoder has seen the pairs `past` since its last reset: PM with the offset `off` added back is the least
cost of a sequence to each state, and the survivors lead back along one that attains it (R125). -/
structure State.Tracks (s : State) (past : List (Byte × Byte)) (off : Nat) : Prop where
  inv : s.Inv
  count : s.pcnt = min past.length s.cfg.D
  least : ∀ p < s.cfg.N, ∀ bits : List Bool, bits.length = past.length →
    pmRead s.pm (encoderState s.cfg p bits) + off ≤ sequenceCost s.cfg p bits past
  attained : ∀ d < s.cfg.N, ∃ p bits, s.Realizes past off d p bits

theorem builtState_tracks {c : Cfg} (hc : configValid c = true) : (builtState c).Tracks [] 0 where
  inv := builtState_inv hc
  count := by simp
  least := fun p _ bits hlen => by
    rw [List.length_eq_zero_iff.mp hlen]
    exact le_rfl
  attained := fun d hd =>
    ⟨d, [], { start := hd, length := rfl, leads := rfl, cost := rfl, walk := fun n hn => absurd hn n.not_lt_zero }⟩

/-- One more input costs one more branch metric. -/
theorem sequenceCost_concat (c : Cfg) (b : Bool) (r : Byte × Byte) {bits : List Bool} {rs : List (Byte × Byte)}
    (p : Nat) (h : bits.length = rs.length) :
    sequenceCost c p (bits ++ [b]) (rs ++ [r]) = sequenceCost c p bits rs +
      branchMetric c (symbolOperand r.1) (symbolOperand r.2) (outLabel c (encoderState c p bits) b) := by
  simp only [sequenceCost, pathMetric_concat c b r p h, Nat.add_assoc]

/-- The candidate of a decoder, its branch metric written out (R120). -/
theorem State.Inv.candidate_eq {s : State} (h : s.Inv) {p : Nat} (r0 r1 d : Nat) (hp : p < s.cfg.N) :
    candidate s.pm (bmVector s.cfg s.trellis r0 r1) p d =
      pmRead s.pm p + branchMetric s.cfg r0 r1 (outLabel s.cfg p (inputBit d)) := by
  rw [candidate, h.tables, bmRead_bmVector r0 r1 _ hp]

/-- The survivor's predecessor is a state, and the transition from it leads to `d` (R86, R120). -/
theorem State.Inv.survivor_leads {s : State} (h : s.Inv) {d : Nat} (bmv : List Nat) (hd : d < s.cfg.N) :
    (select s.cfg s.pm bmv d).survivor.pred < s.cfg.N ∧
      nextState s.cfg (select s.cfg s.pm bmv d).survivor.pred (inputBit d) = d := by
  have hK := ((configValid_iff s.cfg).mp h.config).1
  have hpred := (select_survivor s.cfg s.pm bmv d).2
  have hlt : (select s.cfg s.pm bmv d).survivor.pred < s.cfg.N := by
    rcases hpred with hq | hq
    · exact hq ▸ plo_lt s.cfg d hd
    · exact hq ▸ phi_lt s.cfg d hK hd
  exact ⟨hlt, (nextState_eq_iff _ hK hlt hd).mpr ⟨rfl, hpred⟩⟩

/-- After a FEED, no sequence of one more input costs less than PM says of where it leads (R120, R125). -/
theorem State.Tracks.least_feedWrites {s : State} {past : List (Byte × Byte)} {off : Nat} (h : s.Tracks past off)
    (r : Byte × Byte) {p : Nat} {bits : List Bool} (hp : p < s.cfg.N) (hlen : bits.length = (past ++ [r]).length) :
    pmRead (feedWrites s (symbolOperand r.1) (symbolOperand r.2)).pm (encoderState s.cfg p bits) +
      (off + feedOffset s r) ≤ sequenceCost s.cfg p bits (past ++ [r]) := by
  obtain ⟨init, b, rfl⟩ : ∃ init b, bits = init ++ [b] :=
    (List.eq_nil_or_concat' bits).resolve_left fun hnil => by simp [hnil] at hlen
  replace hlen : init.length = past.length := by simpa using hlen
  have hK := ((configValid_iff s.cfg).mp h.inv.config).1
  have hq := encoderState_lt init hp
  have hd := nextState_lt s.cfg (encoderState s.cfg p init) b
  obtain ⟨hb, hpred⟩ := (nextState_eq_iff b hK hq hd).mp rfl
  have hnew := pmRead_feedWrites r hd
  have hsel := select_metric_le s.pm (bmVector s.cfg s.trellis (symbolOperand r.1) (symbolOperand r.2)) hpred
  rw [h.inv.candidate_eq _ _ _ hq, ← hb] at hsel
  have hold := h.least p hp init hlen
  rw [encoderState_concat, sequenceCost_concat s.cfg b r p hlen]
  omega

/-- After a FEED the sequence of the survivor's predecessor, with the destination's bit, attains PM. -/
theorem State.Tracks.realizes_feedWrites {s : State} {past : List (Byte × Byte)} {off : Nat} (h : s.Tracks past off)
    (r : Byte × Byte) {d : Nat} (hd : d < s.cfg.N) :
    ∃ p bits, (feedWrites s (symbolOperand r.1) (symbolOperand r.2)).Realizes (past ++ [r]) (off + feedOffset s r)
      d p bits := by
  obtain ⟨hq, hnext⟩ := h.inv.survivor_leads (bmVector s.cfg s.trellis (symbolOperand r.1) (symbolOperand r.2)) hd
  obtain ⟨p, bits, hr⟩ := h.attained _ hq
  refine ⟨p, bits ++ [inputBit d], ⟨hr.start, by simp [hr.length], ?_, ?_, ?_⟩⟩
  · rw [feedWrites_cfg, encoderState_concat, hr.leads, hnext]
  · have hnew := pmRead_feedWrites r hd
    rw [select_metric, h.inv.candidate_eq _ _ _ hq] at hnew
    have hold := hr.cost
    rw [feedWrites_cfg, sequenceCost_concat s.cfg _ r p hr.length, hr.leads]
    omega
  · intro n hn
    simp only [feedWrites_cfg, feedWrites_wptr, feedWrites_pcnt, nextCount] at hn ⊢
    have hlen := hr.length
    cases n with
    | zero => rw [h.inv.walkBack_zero_feedWrites _ _ hd]; simp [hlen]
    | succ n =>
      have hcount := h.count
      have hplace : (past ++ [r]).length - 1 - (n + 1) = past.length - 1 - n := by
        rw [List.length_append, List.length_singleton]
        omega
      have hbefore : past.length - 1 - n < bits.length := by omega
      rw [h.inv.walkBack_succ_feedWrites _ _ hd (by omega), hr.walk n (by omega), hplace,
        List.getElem?_append_left hbefore]

/-- A FEED cycle goes on with one more pair (R125, R161). -/
theorem State.Tracks.afterFeed {s : State} {past : List (Byte × Byte)} {off : Nat} (h : s.Tracks past off)
    (r : Byte × Byte) :
    (feedCycle s (symbolOperand r.1) (symbolOperand r.2)).Tracks (past ++ [r]) (off + feedOffset s r) := by
  obtain ⟨out, -, hc⟩ := h.inv.feedCycle_eq (symbolOperand r.1) (symbolOperand r.2)
  rw [hc]
  refine ⟨(h.inv.feedWrites_inv _ _).respond_inv _, ?_, fun p hp bits hlen => h.least_feedWrites r hp hlen,
    fun d hd => ?_⟩
  · have hcount := h.count
    simp only [respond_pcnt, respond_cfg, feedWrites_pcnt, feedWrites_cfg, nextCount, List.length_append,
      List.length_singleton]
    omega
  · obtain ⟨p, bits, hr⟩ := h.realizes_feedWrites r hd
    exact ⟨p, bits, { hr with }⟩

/-- A presented FEED with legal symbols is one cycle (R160, R161). -/
theorem State.Inv.step_feed {s : State} (h : s.Inv) {r0 r1 : Byte} (hr : symbolsInRange s.cfg r0 r1 = true) :
    step (present (encode (.feed r0 r1)) s) = .next (feedCycle s (symbolOperand r0) (symbolOperand r1)) := by
  rw [step_present _ h.config, decode_encode_feed]
  exact execFeed_next hr h.shaped

/-- A run of FEEDs with legal symbols completes, and goes on with their pairs (R125). -/
theorem State.Tracks.run : ∀ (rs : List (Byte × Byte)) {s : State} {past : List (Byte × Byte)} {off : Nat},
    s.Tracks past off → legalPairs s.cfg rs = true →
    ∃ t, runCommands s (feedWords rs) = .next t ∧ t.cfg = s.cfg ∧ t.Tracks (past ++ rs) (off + totalOffset s rs)
  | [], s, past, off, h, _ => ⟨s, rfl, rfl, by simpa [totalOffset] using h⟩
  | r :: rs, s, past, off, h, hl => by
    simp only [legalPairs, List.all_cons, Bool.and_eq_true] at hl
    obtain ⟨hr, hrest⟩ := hl
    have hcfg : (feedCycle s (symbolOperand r.1) (symbolOperand r.2)).cfg = s.cfg :=
      (h.inv.feedCycle_effect _ _).2.1
    obtain ⟨t, hrun, htcfg, ht⟩ := State.Tracks.run rs (h.afterFeed r) (by rw [hcfg]; exact hrest)
    refine ⟨t, ?_, htcfg.trans hcfg, by simpa [totalOffset, Nat.add_assoc] using ht⟩
    rw [feedWords, List.map_cons, runCommands_cons (h.inv.step_feed hr)]
    exact hrun

/-- The sequence that PM's least entry stands for starts in state 0 and is least among all from there (R125). -/
theorem State.Tracks.best_sequence {s : State} {past : List (Byte × Byte)} {off : Nat} (h : s.Tracks past off)
    (hl : legalPairs s.cfg past = true) :
    ∃ bits, s.Realizes past off (argminLow s.pm) 0 bits ∧
      ∀ bits' : List Bool, bits'.length = past.length →
        pathMetric s.cfg 0 bits past ≤ pathMetric s.cfg 0 bits' past := by
  obtain ⟨p, bits, hr⟩ := h.attained _ h.inv.argminLow_lt
  have hcost := hr.cost
  have hmin : pmRead s.pm (argminLow s.pm) = 0 := by
    simp [pmRead, (argminLow_spec h.inv.pm_ne_nil).1, h.inv.normalized]
  have hle : ∀ bits' : List Bool, bits'.length = past.length → off ≤ pathMetric s.cfg 0 bits' past :=
    fun bits' hlen => by
      have := h.least 0 (N_pos _) bits' hlen
      rw [sequenceCost, resetPM_read (N_pos _), if_pos rfl] at this
      omega
  have hp : p = 0 := by
    by_contra h0
    have hlt := pathMetric_zero_lt bits h.inv.config hl hr.start h0
    have := hle bits hr.length
    rw [sequenceCost] at hcost
    omega
  subst hp
  refine ⟨bits, hr, fun bits' hlen => ?_⟩
  rw [sequenceCost, resetPM_read (N_pos _), if_pos rfl] at hcost
  have := hle bits' hlen
  omega

/-- The response words of the model and of the statements are the same (R162). -/
theorem responseWord_okResponse (out : Option Bool) : responseWord (okResponse out) = Claims.resultWord out := by
  rcases out with _ | _ | _ <;> simp [Claims.resultWord]

/-- Settles O49: the traceback of a primed FEED reads the least sequence that PM's least entry stands for. -/
theorem decodedBitLiesOnALeastMetricSequence : Obligations.DecodedBitLiesOnALeastMetricSequence := by
  intro c rs r0 r1 hc hl hr hlen
  obtain ⟨s, hrun, rfl, hs⟩ := State.Tracks.run rs (builtState_tracks hc) hl
  rw [List.nil_append] at hs
  obtain ⟨bits, hreal, hleast⟩ := hs.best_sequence hl
  have hp : s.pcnt = s.cfg.D := hs.count.trans (min_eq_right hlen)
  obtain ⟨b, htrace, hout⟩ := hs.inv.feedOutput_primed hp
  obtain ⟨out, hout', hcycle⟩ := hs.inv.feedCycle_eq (symbolOperand r0) (symbolOperand r1)
  obtain rfl : out = some b := by rw [hout] at hout'; exact (Option.some.inj hout').symm
  have hD := hs.inv.cursor.pos
  have hbit := hreal.walk (s.cfg.D - 1) (by omega)
  rw [show rs.length - 1 - (s.cfg.D - 1) = rs.length - s.cfg.D by omega] at hbit
  exact ⟨s, _, bits, b, hrun, hs.inv.step_feed hr, by simp [hcycle, responseWord_okResponse], hreal.length,
    hbit ▸ htrace, hleast⟩

end Sys2Proof.Machine
end

section
/-! The invariant holds of every built decoder, and every step keeps it. -/

namespace Sys2Proof.Machine

/-! ## Every step -/

/-- The words still to be presented are no part of the invariant. -/
theorem State.Inv.withInput_inv {s : State} (h : s.Inv) (ws : List Word) : { s with input := ws }.Inv := { h with }

/-- A FEED keeps the invariant, whether its symbols are legal or not (R101, R161). -/
theorem State.Inv.execFeed_inv {r0 r1 : Byte} {s t : State} (h : s.Inv) (hf : execFeed r0 r1 s = .next t) :
    t.Inv := by
  rcases execFeed_cases hf with ⟨-, rfl⟩ | ⟨-, -, rfl⟩
  · exact raise_invalidSymbol s ▸ h.respond_inv _
  · exact (h.feedCycle_effect _ _).1

/-- Every command keeps the invariant (R160). -/
theorem State.Inv.exec_inv {i : Instr} {s t : State} (h : s.Inv) (he : exec i s = .next t) : t.Inv := by
  rcases exec_cases he with ⟨-, rfl⟩ | ⟨r0, r1, -, hf⟩ | ⟨-, rfl⟩ | ⟨w, -, rfl⟩
  · exact h.respond_inv _
  · exact h.execFeed_inv hf
  · exact h.resetWrites_inv.respond_inv _
  · exact raise_illegalCommand s ▸ h.respond_inv _

/-- Settles O39: a step does nothing or performs a command, and every command keeps the invariant. -/
theorem everyStepKeepsTheInvariant : Obligations.EveryStepKeepsTheInvariant := by
  intro s t h hstep
  obtain ⟨-, ⟨-, rfl⟩ | ⟨w, rest, -, he⟩⟩ := step_cases hstep
  · exact h
  · exact (h.withInput_inv rest).exec_inv he

/-! ## Construction (R37, R80) -/

/-- Building gives the built state of a valid configuration and nothing else (R80, R221). -/
theorem buildInstance_ok_iff {c : Cfg} {s : State} :
    buildInstance c = .ok s ↔ configValid c = true ∧ s = builtState c := by
  unfold buildInstance
  split
  next hc => simp [hc, eq_comm]
  next hc => simp [hc]

/-- The metric of every state but 0 is the sentinel after reset (R37). -/
theorem resetPM_at_sentinel {c : Cfg} {d : Nat} (h1 : 1 ≤ d) (hd : d < c.N) : (resetPM c)[d]? = some c.S := by
  obtain ⟨k, rfl⟩ := Nat.exists_eq_add_of_le' h1
  rw [resetPM, List.getElem?_cons_succ, List.getElem?_replicate, if_pos (by omega)]

/-- Settles O38: the built state has R37's values, field by field. -/
theorem builtInstancesAreInTheResetState : Obligations.BuiltInstancesAreInTheResetState := by
  intro c s hs
  obtain ⟨hc, rfl⟩ := buildInstance_ok_iff.mp hs
  exact ⟨builtState_inv hc, rfl, rfl, resetPM_length c, rfl, fun _ => resetPM_at_sentinel, smRead_reset c,
    rfl, rfl, rfl⟩

/-- Settles O37: the configuration of `State.reset` passes CONFIG_CHECK. -/
theorem resetStateMeetsTheInvariant : Obligations.ResetStateMeetsTheInvariant :=
  builtState_inv (by decide)

end Sys2Proof.Machine
end

section
/-! What no command writes, and which commands alone write storage, in every state. -/

namespace Sys2Proof.Machine

/-- A FEED cycle leaves CFG, TRELLIS and the stream alone, and MODEL_FAULT set where it was (R22, R25, R35). -/
theorem feedCycle_frame (s : State) (r0 r1 : Nat) :
    (feedCycle s r0 r1).cfg = s.cfg ∧ (feedCycle s r0 r1).trellis = s.trellis ∧
      (s.modelFault = true → (feedCycle s r0 r1).modelFault = true) ∧ (feedCycle s r0 r1).input = s.input := by
  rcases feedCycle_cases s r0 r1 with ⟨-, hraise⟩ | ⟨out, -, hwrites⟩
  · simp [hraise]
  · simp [hwrites]

/-- Settles O19: neither an answer, nor an error, nor the writes of FEED and RESET touch these fields but
MODEL_FAULT, which an error can only set. -/
theorem noCommandChangesConfigurationOrTrellis : Obligations.NoCommandChangesConfigurationOrTrellis := by
  intro i s t he
  rcases exec_cases he with ⟨-, rfl⟩ | ⟨r0, r1, -, hf⟩ | ⟨-, rfl⟩ | ⟨w, -, rfl⟩
  · simp
  · rcases execFeed_cases hf with ⟨-, rfl⟩ | ⟨-, -, rfl⟩
    · simp
    · exact feedCycle_frame s _ _
  · simp
  · simp

/-- A legal symbol is below `2^B` (R14, R101). -/
theorem lt_two_pow_of_le_maxSym {c : Cfg} {r : Nat} (h : r ≤ c.maxSym) : r < 2 ^ c.B :=
  Nat.lt_of_le_pred (Nat.two_pow_pos c.B) h

/-- Settles O20: NOP and the errors write no storage, and a FEED that is not rejected has legal symbols. -/
theorem onlyFeedAndResetWriteStorage : Obligations.OnlyFeedAndResetWriteStorage := by
  intro i s t he hwrite
  rcases exec_cases he with ⟨-, rfl⟩ | ⟨r0, r1, rfl, hf⟩ | ⟨rfl, -⟩ | ⟨w, -, rfl⟩
  · simp at hwrite
  · rcases execFeed_cases hf with ⟨-, rfl⟩ | ⟨hr, -, -⟩
    · simp at hwrite
    · obtain ⟨h0, h1⟩ := (symbolsInRange_iff s.cfg r0 r1).mp hr
      exact .inr ⟨r0, r1, rfl, lt_two_pow_of_le_maxSym h0, lt_two_pow_of_le_maxSym h1⟩
  · exact .inl rfl
  · simp at hwrite

end Sys2Proof.Machine
end

section
/-! The bytes of a serialized word (R45). -/

namespace Sys2Proof

/-- Byte `i` of a word is its bits 8i+7 to 8i (R45). -/
theorem bytesOfWord_at (w : Word) {i : Nat} (hi : i < 4) : (bytesOfWord w)[i]? = some (w.extractLsb' (8 * i) 8) := by
  interval_cases i <;> rfl

/-- The bytes of a word, before any others, decode as the word and leave the others (R45, R68). -/
theorem decodeBytes_bytesOfWord (w : Word) (rest : List Byte) :
    decodeBytes (bytesOfWord w ++ rest) = .ok (decode w, rest) := by
  simp [bytesOfWord, decodeBytes, word_of_bytes]

/-- Settles O6: each byte is an extracted field, and the four fields cover the word. -/
theorem serializedWordsAreLittleEndian : Obligations.SerializedWordsAreLittleEndian := by
  intro w rest
  refine ⟨rfl, fun i hi => ⟨_, bytesOfWord_at w hi, ?_⟩, decodeBytes_bytesOfWord w rest⟩
  rw [BitVec.extractLsb'_toNat, Nat.shiftRight_eq_div_pow]

end Sys2Proof
end

section
/-! What FEED leaves as it was, and where it stops, in every state (R41, R42, R217). -/

namespace Sys2Proof.Machine

/-! ## The frame of FEED -/

/-- A FEED cycle records in WPTR's slot alone, or raises MODEL_FAULT and records nothing (R42, R140, R217). -/
theorem smRead_feedCycle_other (s : State) (r0 r1 : Nat) {j : Nat} (d : Nat) (hj : j ≠ s.wptr) :
    smRead (feedCycle s r0 r1).sm j d = smRead s.sm j d := by
  rcases feedCycle_cases s r0 r1 with ⟨-, hraise⟩ | ⟨out, -, hwrites⟩
  · rw [hraise, raise_sm]
  · rw [hwrites, respond_sm, feedWrites_sm, smRead_record_other _ _ _ _ _ hj]

/-- Where a FEED cycle touches MODEL_FAULT it sets it and writes no storage (R217). -/
theorem feedCycle_modelFault (s : State) (r0 r1 : Nat) :
    (feedCycle s r0 r1).modelFault = s.modelFault ∨
      (feedCycle s r0 r1).modelFault = true ∧ (feedCycle s r0 r1).pm = s.pm ∧ (feedCycle s r0 r1).sm = s.sm ∧
        (feedCycle s r0 r1).wptr = s.wptr ∧ (feedCycle s r0 r1).pcnt = s.pcnt := by
  rcases feedCycle_cases s r0 r1 with ⟨-, hraise⟩ | ⟨out, -, hwrites⟩
  · exact .inr (by simp [hraise])
  · exact .inl (by simp [hwrites])

/-- Settles O30: a rejected FEED only answers, and any other is a FEED cycle. -/
theorem feedLeavesEveryOtherSlot : Obligations.FeedLeavesEveryOtherSlot := by
  intro s t r0 r1 hf
  rcases execFeed_cases hf with ⟨-, rfl⟩ | ⟨-, -, rfl⟩
  · simp [raise_invalidSymbol]
  · obtain ⟨hcfg, htrellis, -, hinput⟩ := feedCycle_frame s (symbolOperand r0) (symbolOperand r1)
    exact ⟨hcfg, htrellis, hinput, fun j d hj => smRead_feedCycle_other s _ _ d hj, feedCycle_modelFault s _ _⟩

/-! ## Where FEED stops (R41) -/

/-- FEED stops exactly where its symbols are legal and the state is not shaped (R41, R101). -/
theorem execFeed_fault_iff {r0 r1 : Byte} {s : State} {f : Fault} :
    execFeed r0 r1 s = .fault f ↔
      f = .indexOutOfRange ∧ symbolsInRange s.cfg r0 r1 = true ∧ s.shaped = false := by
  unfold execFeed
  split
  next hr =>
    split
    next hs => simp [hs]
    next hs => simp [hr, hs, eq_comm]
  next hr => simp [hr]

/-- In a shaped state FEED answers a next state, whatever its symbols (R41, R101). -/
theorem execFeed_completes {s : State} (r0 r1 : Byte) (hs : s.shaped = true) :
    ∃ t, execFeed r0 r1 s = .next t := by
  cases hr : symbolsInRange s.cfg r0 r1 with
  | true => exact ⟨_, execFeed_next hr hs⟩
  | false => exact ⟨s.raise .invalidSymbol, by simp [execFeed, hr]⟩

/-- The shape of a state, said without Booleans (R40, R41). -/
theorem shaped_iff (s : State) :
    s.shaped = true ↔
      s.trellis.out.length = 2 * s.cfg.N ∧ s.pm.length = s.cfg.N ∧ s.sm.length = s.cfg.D ∧
        (∀ row ∈ s.sm, row.length = s.cfg.N) ∧ s.wptr < s.cfg.D := by
  simp only [State.shaped, Bool.and_eq_true, decide_eq_true_eq, smWf_iff, and_assoc]

/-- Symbols below `2^B` pass the symbol check (R14, R101). -/
theorem symbolsInRange_of_lt_two_pow {c : Cfg} {r0 r1 : Byte} (h0 : r0.toNat < 2 ^ c.B) (h1 : r1.toNat < 2 ^ c.B) :
    symbolsInRange c r0 r1 = true :=
  (symbolsInRange_iff c r0 r1).mpr ⟨Nat.le_sub_one_of_lt h0, Nat.le_sub_one_of_lt h1⟩

/-- Settles O32: FEED stops exactly on legal symbols in a state that is not shaped, and the invariant gives the
shape. -/
theorem feedStopsOnlyInStatesThatAreNotShaped : Obligations.FeedStopsOnlyInStatesThatAreNotShaped := by
  refine ⟨fun s r0 r1 hs h0 h1 => ?_, fun s r0 r1 f hf => ?_, fun s r0 r1 hs => execFeed_completes r0 r1 hs,
    shaped_iff, fun s h => h.shaped⟩
  · exact execFeed_fault_iff.mpr ⟨rfl, symbolsInRange_of_lt_two_pow h0 h1, hs⟩
  · obtain ⟨hindex, -, hs⟩ := execFeed_fault_iff.mp hf
    exact ⟨hindex, hs⟩

end Sys2Proof.Machine
end

section
/-! The ring of D slots against a history of survivor rows that is never overwritten (R54, R144, R146). -/

namespace Sys2Proof.Machine

/-- The ring of `s` stands for the history `rows`, newest row first: a walk from the cursor that reads no more rows
than are kept finds in the ring what it finds in the history. -/
structure State.Remembers (s : State) (rows : List (List Survivor)) : Prop where
  inv : s.Inv
  count : s.pcnt = min rows.length s.cfg.D
  walk : ∀ n < s.pcnt, ∀ d < s.cfg.N, walkBack s.cfg.D s.sm n s.wptr d = historyWalk n rows d

/-- A built decoder remembers nothing (R37). -/
theorem builtState_remembers {c : Cfg} (hc : configValid c = true) : (builtState c).Remembers [] where
  inv := builtState_inv hc
  count := by simp
  walk := fun n hn => absurd hn n.not_lt_zero

/-- An answer is no part of what is remembered. -/
theorem State.Remembers.respond_remembers {s : State} {rows : List (List Survivor)} (h : s.Remembers rows)
    (r : Response) : (s.respond r).Remembers rows :=
  { h with inv := h.inv.respond_inv r }

/-- A FEED remembers one row more: what it overwrites lies beyond the walks (R42, R140, R146). -/
theorem State.Remembers.feedWrites_remembers {s : State} {rows : List (List Survivor)} (h : s.Remembers rows)
    (r0 r1 : Nat) : (feedWrites s r0 r1).Remembers (survivors (feedSelections s r0 r1) :: rows) where
  inv := h.inv.feedWrites_inv r0 r1
  count := by
    have hcount := h.count
    simp only [feedWrites_pcnt, feedWrites_cfg, nextCount, List.length_cons]
    omega
  walk := fun n hn d hd => by
    simp only [feedWrites_pcnt, feedWrites_cfg, feedWrites_wptr, nextCount] at hn hd ⊢
    have hrow := survivors_feedSelections_at r0 r1 hd
    cases n with
    | zero =>
      rw [h.inv.walkBack_zero_feedWrites r0 r1 hd, historyWalk, hrow]
      exact congrArg some (select_survivor ..).1.symm
    | succ n =>
      have hpred := (h.inv.survivor_leads (bmVector s.cfg s.trellis r0 r1) hd).1
      rw [h.inv.walkBack_succ_feedWrites r0 r1 hd (by omega), h.walk n (by omega) _ hpred, historyWalk, hrow]

/-- FEED's result is that of a decoder that traces back `D` rows of the history once there are `D` (R143, R144). -/
theorem State.Remembers.feedOutput_eq {s : State} {rows : List (List Survivor)} (h : s.Remembers rows) :
    feedOutput s =
      some (if s.cfg.D ≤ rows.length then historyWalk (s.cfg.D - 1) rows (argminLow s.pm) else none) := by
  have hcount := h.count
  have hD := h.inv.cursor.pos
  split
  next hfull =>
    have hp : s.pcnt = s.cfg.D := by omega
    obtain ⟨b, htrace, hout⟩ := h.inv.feedOutput_primed hp
    rw [hout, ← htrace, traceback, h.walk _ (by omega) _ h.inv.argminLow_lt]
  next hfew => exact feedOutput_priming (by omega)

/-- A run of FEEDs with legal symbols answers what the decoder with the unbounded history answers (R54, R144). -/
theorem State.Remembers.run : ∀ (rs : List (Byte × Byte)) {s : State} {rows : List (List Survivor)},
    s.Remembers rows → legalPairs s.cfg rs = true →
    ∃ t, runCommands s (feedWords rs) = .next t ∧
      t.output = s.output ++ (historyOutputs s.cfg s.pm rows rs).map Claims.resultWord
  | [], s, rows, _, _ => ⟨s, rfl, by simp [historyOutputs]⟩
  | r :: rs, s, rows, h, hl => by
    simp only [legalPairs, List.all_cons, Bool.and_eq_true] at hl
    obtain ⟨hr, hrest⟩ := hl
    obtain ⟨out, hout, hcycle⟩ := h.inv.feedCycle_eq (symbolOperand r.1) (symbolOperand r.2)
    have hresult := Option.some.inj (hout.symm.trans h.feedOutput_eq)
    have hnext :=
      (h.feedWrites_remembers (symbolOperand r.1) (symbolOperand r.2)).respond_remembers (okResponse out)
    obtain ⟨t, hrun, htout⟩ := State.Remembers.run rs hnext hrest
    refine ⟨t, ?_, ?_⟩
    · rw [feedWords, List.map_cons, runCommands_cons (h.inv.step_feed hr), hcycle]
      exact hrun
    · rw [htout, historyOutputs, ← hresult, ← h.inv.tables]
      simp [responseWord_okResponse, feedSelections]

/-- Settles O45: a built decoder remembers the empty history, and every FEED goes on as the history does. -/
theorem ringDecodesLikeTheUnboundedHistory : Obligations.RingDecodesLikeTheUnboundedHistory := by
  intro c rs hc hl
  obtain ⟨t, hrun, hout⟩ := State.Remembers.run rs (builtState_remembers hc) hl
  exact ⟨t, hrun, by simpa using hout⟩

end Sys2Proof.Machine
end

section
/-! Decoding and encoding: which words decode to each command, and the round trips (R60, R63 to R66, R69). -/

namespace Sys2Proof

/-! ## The fields of a word as numbers (R60) -/

theorem opc_toNat (w : Word) : (opc w).toNat = w.toNat % 2 ^ 4 := by
  rw [opc, BitVec.extractLsb'_toNat, Nat.shiftRight_zero]

theorem rsv0_toNat (w : Word) : (rsv0 w).toNat = w.toNat / 2 ^ 4 % 2 ^ 4 := by
  rw [rsv0, BitVec.extractLsb'_toNat, Nat.shiftRight_eq_div_pow]

theorem sym0_toNat (w : Word) : (sym0 w).toNat = w.toNat / 2 ^ 8 % 2 ^ 8 := by
  rw [sym0, BitVec.extractLsb'_toNat, Nat.shiftRight_eq_div_pow]

theorem sym1_toNat (w : Word) : (sym1 w).toNat = w.toNat / 2 ^ 16 % 2 ^ 8 := by
  rw [sym1, BitVec.extractLsb'_toNat, Nat.shiftRight_eq_div_pow]

theorem rsv1_toNat (w : Word) : (rsv1 w).toNat = w.toNat / 2 ^ 24 % 2 ^ 8 := by
  rw [rsv1, BitVec.extractLsb'_toNat, Nat.shiftRight_eq_div_pow]

/-- A word is packed from a code and two symbols exactly when these are its fields and the reserved ones are zero
(R60). -/
theorem eq_packCommand_iff {w : Word} {op : BitVec 4} {s0 s1 : Byte} :
    w = packCommand op s0 s1 ↔ opc w = op ∧ rsv0 w = 0#4 ∧ rsv1 w = 0#8 ∧ sym0 w = s0 ∧ sym1 w = s1 := by
  constructor
  · rintro rfl
    exact ⟨opc_packCommand .., rsv0_packCommand .., rsv1_packCommand .., sym0_packCommand .., sym1_packCommand ..⟩
  · rintro ⟨rfl, h0, h1, rfl, rfl⟩
    exact (packCommand_of_fields w h0 h1).symm

/-- The word of NOP by fields (R65). -/
theorem nopPattern_iff (w : Word) :
    w = 0x00000000#32 ↔ opc w = 0x0#4 ∧ rsv0 w = 0#4 ∧ rsv1 w = 0#8 ∧ sym0 w = 0#8 ∧ sym1 w = 0#8 :=
  eq_packCommand_iff (op := 0x0#4) (s0 := 0#8) (s1 := 0#8)

/-- The word of RESET by fields (R65). -/
theorem resetPattern_iff (w : Word) :
    w = 0x00000002#32 ↔ opc w = 0x2#4 ∧ rsv0 w = 0#4 ∧ rsv1 w = 0#8 ∧ sym0 w = 0#8 ∧ sym1 w = 0#8 :=
  eq_packCommand_iff (op := 0x2#4) (s0 := 0#8) (s1 := 0#8)

/-! ## What a word decodes to (R66) -/

/-- Everything decoding can give, with the pattern of R65 that gives it. -/
theorem decode_cases (w : Word) :
    (w = 0x00000000#32 ∧ decode w = .nop) ∨
    (w &&& 0xFF0000FF#32 = 0x00000001#32 ∧ decode w = .feed (sym0 w) (sym1 w)) ∨
    (w = 0x00000002#32 ∧ decode w = .reset) ∨
    (w ≠ 0x00000000#32 ∧ w &&& 0xFF0000FF#32 ≠ 0x00000001#32 ∧ w ≠ 0x00000002#32 ∧ decode w = .illegal w) := by
  unfold decode
  split
  next hnop => exact .inl ⟨hnop, rfl⟩
  next hnop =>
    split
    next hfeed => exact .inr (.inl ⟨hfeed, rfl⟩)
    next hfeed =>
      split
      next hreset => exact .inr (.inr (.inl ⟨hreset, rfl⟩))
      next hreset => exact .inr (.inr (.inr ⟨hnop, hfeed, hreset, rfl⟩))

theorem decode_nop_word : decode 0x00000000#32 = .nop := rfl

theorem decode_reset_word : decode 0x00000002#32 = .reset := by decide

/-- FEED's match and mask give FEED of the word's own symbols: NOP's word does not match them. -/
theorem decode_of_feedPattern {w : Word} (h : w &&& 0xFF0000FF#32 = 0x00000001#32) :
    decode w = .feed (sym0 w) (sym1 w) := by
  have hnop : w ≠ 0x00000000#32 := by
    rintro rfl
    exact absurd h (by decide)
  rw [decode, if_neg hnop, if_pos h]

theorem decode_eq_nop_iff {w : Word} : decode w = .nop ↔ w = 0x00000000#32 := by
  refine ⟨fun h => ?_, fun h => h ▸ decode_nop_word⟩
  rcases decode_cases w with ⟨hw, -⟩ | ⟨-, hd⟩ | ⟨-, hd⟩ | ⟨-, -, -, hd⟩
  · exact hw
  all_goals simp [hd] at h

theorem decode_eq_reset_iff {w : Word} : decode w = .reset ↔ w = 0x00000002#32 := by
  refine ⟨fun h => ?_, fun h => h ▸ decode_reset_word⟩
  rcases decode_cases w with ⟨-, hd⟩ | ⟨-, hd⟩ | ⟨hw, -⟩ | ⟨-, -, -, hd⟩
  case inr.inr.inl => exact hw
  all_goals simp [hd] at h

theorem decode_eq_feed_iff {w : Word} {r0 r1 : Byte} :
    decode w = .feed r0 r1 ↔ w &&& 0xFF0000FF#32 = 0x00000001#32 ∧ sym0 w = r0 ∧ sym1 w = r1 := by
  refine ⟨fun h => ?_, fun ⟨hw, h0, h1⟩ => h0 ▸ h1 ▸ decode_of_feedPattern hw⟩
  rcases decode_cases w with ⟨-, hd⟩ | ⟨hw, hd⟩ | ⟨-, hd⟩ | ⟨-, -, -, hd⟩
  case inr.inl => exact ⟨hw, by simpa [hd] using h⟩
  all_goals simp [hd] at h

theorem decode_eq_illegal_iff {w v : Word} :
    decode w = .illegal v ↔
      v = w ∧ w ≠ 0x00000000#32 ∧ w &&& 0xFF0000FF#32 ≠ 0x00000001#32 ∧ w ≠ 0x00000002#32 := by
  constructor
  · intro h
    rcases decode_cases w with ⟨-, hd⟩ | ⟨-, hd⟩ | ⟨-, hd⟩ | ⟨hnop, hfeed, hreset, hd⟩
    case inr.inr.inr => exact ⟨by simpa [hd, eq_comm] using h, hnop, hfeed, hreset⟩
    all_goals simp [hd] at h
  · rintro ⟨rfl, hnop, hfeed, hreset⟩
    rw [decode, if_neg hnop, if_neg hfeed, if_neg hreset]

/-- A kept illegal word is well formed exactly when it matches no pattern of R65. -/
theorem wellFormed_illegal_iff {w : Word} :
    WellFormed (.illegal w) ↔
      w ≠ 0x00000000#32 ∧ w &&& 0xFF0000FF#32 ≠ 0x00000001#32 ∧ w ≠ 0x00000002#32 := by
  have hmask : w &&& 0xFFFFFFFF#32 = w := BitVec.and_allOnes
  simp [WellFormed, Instr.wellFormed, matchesLegalPattern, hmask, and_assoc]

/-! ## The round trips -/

/-- Settles O1: a packed word has its own fields, and a well-formed illegal word matches no pattern. -/
theorem decodeOfEncodeIsTheCommand : Obligations.DecodeOfEncodeIsTheCommand := by
  intro i hi
  cases i with
  | nop => exact decode_nop_word
  | feed r0 r1 => exact Machine.decode_encode_feed r0 r1
  | reset => exact decode_reset_word
  | illegal w => exact decode_eq_illegal_iff.mpr ⟨rfl, wellFormed_illegal_iff.mp hi⟩

/-- A word that matches FEED's pattern is packed from its symbols. -/
theorem encode_feed_of_feedPattern {w : Word} (h : w &&& 0xFF0000FF#32 = 0x00000001#32) :
    encode (.feed (sym0 w) (sym1 w)) = w := by
  obtain ⟨hopc, h0, h1⟩ := (feedPattern_iff w).mp h
  exact (eq_packCommand_iff.mpr ⟨hopc, h0, h1, rfl, rfl⟩).symm

/-- Settles O2, by what the word decodes to. -/
theorem encodeOfDecodeIsTheWord : Obligations.EncodeOfDecodeIsTheWord := by
  intro w
  rcases decode_cases w with ⟨rfl, hd⟩ | ⟨hfeed, hd⟩ | ⟨rfl, hd⟩ | ⟨hnop, hfeed, hreset, hd⟩ <;> rw [hd]
  · exact ⟨rfl, rfl⟩
  · exact ⟨encode_feed_of_feedPattern hfeed, rfl⟩
  · exact ⟨rfl, rfl⟩
  · exact ⟨rfl, wellFormed_illegal_iff.mpr ⟨hnop, hfeed, hreset⟩⟩

/-! ## Legal words (R65) -/

/-- A word does not decode to ILLEGAL exactly when it matches one of the three patterns. -/
theorem decode_legal_iff {w : Word} :
    (∀ v, decode w ≠ .illegal v) ↔
      w = 0x00000000#32 ∨ w &&& 0xFF0000FF#32 = 0x00000001#32 ∨ w = 0x00000002#32 := by
  simp only [ne_eq, decode_eq_illegal_iff, not_and, forall_eq, not_not]
  tauto

/-- The three patterns by fields: the symbol fields are free under FEED's code alone. -/
theorem legalPattern_iff_fields (w : Word) :
    (w = 0x00000000#32 ∨ w &&& 0xFF0000FF#32 = 0x00000001#32 ∨ w = 0x00000002#32) ↔
      (opc w = 0x0#4 ∨ opc w = 0x1#4 ∨ opc w = 0x2#4) ∧ rsv0 w = 0#4 ∧ rsv1 w = 0#8 ∧
        (opc w ≠ 0x1#4 → sym0 w = 0#8 ∧ sym1 w = 0#8) := by
  rw [nopPattern_iff, feedPattern_iff, resetPattern_iff]
  constructor
  · rintro (⟨ho, h0, h1, hs⟩ | ⟨ho, h0, h1⟩ | ⟨ho, h0, h1, hs⟩)
    · exact ⟨.inl ho, h0, h1, fun _ => hs⟩
    · exact ⟨.inr (.inl ho), h0, h1, fun hne => absurd ho hne⟩
    · exact ⟨.inr (.inr ho), h0, h1, fun _ => hs⟩
  · rintro ⟨ho | ho | ho, h0, h1, hs⟩
    · exact .inl ⟨ho, h0, h1, hs (ho ▸ by decide)⟩
    · exact .inr (.inl ⟨ho, h0, h1⟩)
    · exact .inr (.inr ⟨ho, h0, h1, hs (ho ▸ by decide)⟩)

/-- Settles O3: the legal words by pattern, and the patterns by field. -/
theorem legalWordsAreThoseOfTheFieldConditions : Obligations.LegalWordsAreThoseOfTheFieldConditions := by
  intro w
  refine ⟨decode_legal_iff.trans (legalPattern_iff_fields w), decode_eq_nop_iff, decode_eq_reset_iff, ?_, ?_⟩
  · exact ⟨fun ⟨_, _, h⟩ => (decode_eq_feed_iff.mp h).1, fun h => ⟨_, _, decode_of_feedPattern h⟩⟩
  · rw [decode_eq_illegal_iff]
    tauto

/-! ## FEED's operands (R63) -/

/-- Two symbol values, put at bits 8 and 16 above FEED's code, match FEED's pattern. -/
theorem feedPattern_ofNat {v0 v1 : Nat} (h0 : v0 < 256) (h1 : v1 < 256) :
    BitVec.ofNat 32 (1 + v0 * 2 ^ 8 + v1 * 2 ^ 16) &&& 0xFF0000FF#32 = 0x00000001#32 := by
  refine (feedPattern_iff _).mpr ⟨?_, ?_, ?_⟩ <;> apply BitVec.eq_of_toNat_eq
  · rw [opc_toNat, BitVec.toNat_ofNat, BitVec.toNat_ofNat]
    omega
  · rw [rsv0_toNat, BitVec.toNat_ofNat, BitVec.toNat_ofNat]
    omega
  · rw [rsv1_toNat, BitVec.toNat_ofNat, BitVec.toNat_ofNat]
    omega

/-- Settles O4: the operands are the fields SYM0 and SYM1, read as numbers. -/
theorem feedOperandsAreTheZeroExtendedFields : Obligations.FeedOperandsAreTheZeroExtendedFields := by
  constructor
  · intro w r0 r1 h
    obtain ⟨-, rfl, rfl⟩ := decode_eq_feed_iff.mp h
    exact ⟨sym0_toNat w, sym1_toNat w⟩
  · intro v0 h0 v1 h1
    refine ⟨_, _, decode_of_feedPattern (feedPattern_ofNat h0 h1), ?_, ?_⟩
    · rw [Machine.symbolOperand, sym0_toNat, BitVec.toNat_ofNat]
      omega
    · rw [Machine.symbolOperand, sym1_toNat, BitVec.toNat_ofNat]
      omega

/-- Settles O5: twelve fixed words. -/
theorem wordsOfTheManualDecode : Obligations.WordsOfTheManualDecode := by
  unfold Obligations.WordsOfTheManualDecode
  decide

end Sys2Proof
end

section
/-! The form of every response word (R61, R62). -/

namespace Sys2Proof.Machine

/-- A bit comes out of a FEED of a primed decoder alone (R143). -/
theorem pcnt_of_feedOutput_bit {s : State} {b : Bool} (h : feedOutput s = some (some b)) : s.pcnt = s.cfg.D := by
  unfold feedOutput at h
  split at h
  next hp => exact hp
  next => cases h

/-- What a FEED cycle answers: a bit when primed, or no output, with a code if MODEL_FAULT is raised (R143, R161). -/
theorem feedCycle_answer (s : State) (r0 r1 : Nat) :
    (∃ code, (feedCycle s r0 r1).output = s.output ++ [responseWord (errorResponse code)]) ∨
    (s.pcnt = s.cfg.D ∧ ∃ b, (feedCycle s r0 r1).output = s.output ++ [responseWord (okResponse (some b))]) := by
  rcases feedCycle_cases s r0 r1 with ⟨-, hraise⟩ | ⟨_ | b, hout, hwrites⟩
  · exact .inl ⟨_, by rw [hraise, raise_output]⟩
  · exact .inl ⟨.ok, by rw [hwrites]; rfl⟩
  · exact .inr ⟨pcnt_of_feedOutput_bit hout, b, by rw [hwrites, respond_output, feedWrites_output]⟩

/-- What a command answers: nothing but a code, which is OK where nothing is wrong, or the bit of a primed FEED
(R160, R162, R201). -/
theorem exec_answer {i : Instr} {s t : State} (h : exec i s = .next t) :
    (∃ code, t.output = s.output ++ [responseWord (errorResponse code)]) ∨
    ((∃ r0 r1, i = .feed r0 r1) ∧ s.pcnt = s.cfg.D ∧
      ∃ b, t.output = s.output ++ [responseWord (okResponse (some b))]) := by
  rcases exec_cases h with ⟨-, rfl⟩ | ⟨r0, r1, hi, hf⟩ | ⟨-, rfl⟩ | ⟨w, -, rfl⟩
  · exact .inl ⟨.ok, rfl⟩
  · rcases execFeed_cases hf with ⟨-, rfl⟩ | ⟨-, -, rfl⟩
    · exact .inl ⟨_, raise_output s _⟩
    · exact (feedCycle_answer s _ _).imp_right fun hb => ⟨⟨r0, r1, hi⟩, hb⟩
  · exact .inl ⟨.ok, rfl⟩
  · exact .inl ⟨_, raise_output s _⟩

/-- No code is the reserved one (R62). -/
theorem errBits_ne_reserved (e : ErrCode) : errBits e ≠ 0b11#2 := by
  cases e <;> decide

/-- Settles O13, by the two forms of an answer. -/
theorem everyResponseWordHasTheFieldsOfTheEncoding : Obligations.EveryResponseWordHasTheFieldsOfTheEncoding := by
  intro i s t h
  rcases exec_answer h with ⟨code, hout⟩ | ⟨⟨r0, r1, hi⟩, hp, b, hout⟩
  · obtain ⟨hvalid, hbit, herr, hrest⟩ := responseWord_fields (errorResponse code)
    refine ⟨_, hout, hrest, herr ▸ errBits_ne_reserved _, fun _ => ⟨hvalid, hbit⟩, fun _ => hbit, fun hv => ?_⟩
    exact absurd (hvalid.symm.trans hv) Bool.false_ne_true
  · obtain ⟨hvalid, -, herr, hrest⟩ := responseWord_fields (okResponse (some b))
    refine ⟨_, hout, hrest, herr ▸ errBits_ne_reserved _, fun hne => absurd herr hne, fun hv => ?_,
      fun _ => ⟨r0, r1, hi, hp⟩⟩
    exact absurd (hv.symm.trans hvalid) Bool.false_ne_true

end Sys2Proof.Machine
end

section
/-! The assembler (R70) and its pseudo-instructions (R71, R72). -/

namespace Sys2Proof.Machine

/-! ## FEEDCH and FEEDH (R71, R72) -/

/-- The alphabet of R71, by character codes. -/
theorem symbolOfChar_eq_some_iff {ch : Char} {v : Nat} :
    symbolOfChar ch = some v ↔
      (48 ≤ ch.toNat ∧ ch.toNat ≤ 57 ∧ v + 48 = ch.toNat) ∨
      (97 ≤ ch.toNat ∧ ch.toNat ≤ 118 ∧ v + 97 = ch.toNat + 10) := by
  simp only [symbolOfChar]
  split_ifs with hdigit hletter
  · rw [Option.some_inj]
    omega
  · rw [Option.some_inj]
    omega
  · simp only [false_iff]
    omega

/-- A value that fits the 8-bit field is the operand it makes (R63). -/
theorem symbolOperand_ofNat {v : Nat} (h : v < 256) : symbolOperand (BitVec.ofNat 8 v) = v :=
  Nat.mod_eq_of_lt h

/-- A value of the alphabet is at most 31 (R71). -/
theorem symbolOfChar_lt {ch : Char} {v : Nat} (h : symbolOfChar ch = some v) : v < 32 := by
  have := symbolOfChar_eq_some_iff.mp h
  omega

/-- What FEEDCH expands to (R71). -/
theorem expandFeedch_eq_some_iff {c0 c1 : Char} {i : Instr} :
    expandFeedch c0 c1 = some i ↔
      ∃ v0 v1, symbolOfChar c0 = some v0 ∧ symbolOfChar c1 = some v1 ∧
        i = .feed (BitVec.ofNat 8 v0) (BitVec.ofNat 8 v1) := by
  cases h0 : symbolOfChar c0 <;> cases h1 : symbolOfChar c1 <;> simp [expandFeedch, h0, h1, eq_comm]

/-- A hard value's symbol fits the 8-bit field, since `B ≤ 8` (R10, R72). -/
theorem hardSymbol_lt {c : Cfg} (hc : configValid c = true) (h : Bool) : hardSymbol c h < 256 := by
  obtain ⟨-, -, -, -, hB, -⟩ := (configValid_iff c).mp hc
  have hpow : 2 ^ c.B ≤ 2 ^ 8 := Nat.pow_le_pow_right (by decide) hB
  cases h <;> simp only [hardSymbol, Cfg.maxSym, Bool.toNat_false, Bool.toNat_true] <;> omega

/-- Settles O7: the values of the alphabet and the hard symbols fit the fields. -/
theorem pseudoInstructionsExpandToFeeds : Obligations.PseudoInstructionsExpandToFeeds := by
  refine ⟨fun ch v => symbolOfChar_eq_some_iff, fun c0 c1 i => ?_, fun c h0 h1 hc => ?_⟩
  · rw [expandFeedch_eq_some_iff]
    constructor
    · rintro ⟨v0, v1, h0, h1, rfl⟩
      have hv0 := symbolOfChar_lt h0
      have hv1 := symbolOfChar_lt h1
      refine ⟨_, _, rfl, ?_, ?_⟩
      · rw [h0, symbolOperand_ofNat (by omega)]
      · rw [h1, symbolOperand_ofNat (by omega)]
    · rintro ⟨r0, r1, rfl, h0, h1⟩
      exact ⟨_, _, h0, h1, by simp [symbolOperand]⟩
  · exact ⟨_, _, rfl, symbolOperand_ofNat (hardSymbol_lt hc h0), symbolOperand_ofNat (hardSymbol_lt hc h1)⟩

/-! ## Numbers (R70) -/

/-- The value of a string of digits is the library's `Nat.ofDigits` of their values. -/
theorem digitsValue_map {base : Nat} {char : Nat → Char} : ∀ {ds : List Nat} (acc : Nat),
    (∀ d ∈ ds, digitValue base (char d) = some d) →
    digitsValue base acc (ds.map char) = some (acc * base ^ ds.length + Nat.ofDigits base ds.reverse)
  | [], acc, _ => by simp [digitsValue]
  | d :: ds, acc, h => by
    obtain ⟨hd, hds⟩ := List.forall_mem_cons.mp h
    simp only [List.map_cons, digitsValue, hd]
    rw [digitsValue_map _ hds, Nat.ofDigits_reverse_cons, List.length_cons, Option.some_inj]
    ring

/-- A number without an `x` in it is decimal. -/
theorem numberValue_decimal {t : List Char} (hne : t ≠ []) (hx : 'x' ∉ t) : numberValue t = digitsValue 10 0 t := by
  unfold numberValue
  split
  · exact absurd rfl hne
  · simp at hx
  · rfl

/-- A number that starts with `0x` is hexadecimal. -/
theorem numberValue_hexadecimal {t : List Char} (hne : t ≠ []) :
    numberValue ('0' :: 'x' :: t) = digitsValue 16 0 t := by
  simp [numberValue, hne]

theorem digitValue_decimal : ∀ d < 10, digitValue 10 (Char.ofNat (d + 48)) = some d := by decide

theorem decimal_digit_ne_x : ∀ d < 10, Char.ofNat (d + 48) ≠ 'x' := by decide

theorem digitValue_hexadecimal :
    ∀ d < 16, digitValue 16 (Char.ofNat (if d < 10 then d + 48 else d + 87)) = some d := by decide

/-! ## FEED lines (R70) -/

/-- FEED of two operands, by their numbers. -/
theorem assembleTwo_feed (c : Cfg) (a b : List Char) :
    assembleTwo c ['F', 'E', 'E', 'D'] a b =
      match numberValue a, numberValue b with
      | some x, some y => if x ≤ 255 ∧ y ≤ 255 then some (.feed (BitVec.ofNat 8 x) (BitVec.ofNat 8 y)) else none
      | _, _ => none := by
  rcases ha : numberValue a with _ | x <;> rcases hb : numberValue b with _ | y
  case some.some =>
    by_cases hx : x ≤ 255 <;> by_cases hy : y ≤ 255 <;> simp [assembleTwo, byteOperand, ha, hb, hx, hy]
  all_goals simp [assembleTwo, byteOperand, ha, hb]

/-- A comment is no part of what is read (R70). -/
theorem stripComment_comment : ∀ line comment : List Char, stripComment (line ++ ';' :: comment) = stripComment line
  | [], _ => rfl
  | ch :: line, comment => by simp [stripComment, stripComment_comment line comment]

/-- Settles O8: the four tokens of the line give FEED of the operands' numbers. -/
theorem assemblerReadsFeedLines : Obligations.AssemblerReadsFeedLines := by
  refine ⟨fun c m a b hm ha hb hab => ?_, fun ds hne hds => ?_, fun ds hne hds => ?_, fun c line comment => ?_⟩
  · rw [assembleLine_two hm (by decide) (by simp) ha hb hab, assembleTwo_feed]
    rcases numberValue a with _ | x
    · rfl
    · rcases numberValue b with _ | y
      · rfl
      · exact apply_ite lineOf _ _ _
  · have hx : 'x' ∉ ds.map fun d => Char.ofNat (d + 48) := fun hmem => by
      obtain ⟨d, hd, heq⟩ := List.mem_map.mp hmem
      exact decimal_digit_ne_x d (hds d hd) heq
    rw [numberValue_decimal (by simpa using hne) hx, digitsValue_map 0 fun d hd => digitValue_decimal d (hds d hd)]
    simp
  · rw [numberValue_hexadecimal (by simpa using hne),
      digitsValue_map 0 fun d hd => digitValue_hexadecimal d (hds d hd)]
    simp
  · rw [assembleLine, assembleLine, tokens, tokens, stripComment_comment]

/-! ## The other lines (R70 to R72) -/

/-- The FEEDCH lines that assemble: each operand is one character (R71). -/
theorem assembleTwo_feedch_eq_some_iff {c : Cfg} {a b : List Char} {i : Instr} :
    assembleTwo c ['F', 'E', 'E', 'D', 'C', 'H'] a b = some i ↔
      ∃ c0 c1, a = [c0] ∧ b = [c1] ∧ expandFeedch c0 c1 = some i := by
  unfold assembleTwo
  rw [if_neg (by decide), if_pos rfl]
  split
  next c0 c1 => simp
  next hne => exact ⟨nofun, fun ⟨c0, c1, ha, hb, _⟩ => (hne c0 c1 ha hb).elim⟩

/-- A FEEDCH operand that is no character of the alphabet gives no command (R71). -/
theorem assembleTwo_feedch_eq_none {c : Cfg} {a b : List Char}
    (hout : (∀ c0 v0, a = [c0] → symbolOfChar c0 ≠ some v0) ∨ (∀ c1 v1, b = [c1] → symbolOfChar c1 ≠ some v1)) :
    assembleTwo c ['F', 'E', 'E', 'D', 'C', 'H'] a b = none := by
  refine Option.eq_none_iff_forall_ne_some.mpr fun i hi => ?_
  obtain ⟨c0, c1, ha, hb, hexpand⟩ := assembleTwo_feedch_eq_some_iff.mp hi
  obtain ⟨v0, v1, h0, h1, -⟩ := expandFeedch_eq_some_iff.mp hexpand
  exact hout.elim (fun hout => hout c0 v0 ha h0) (fun hout => hout c1 v1 hb h1)

/-- The spellings of FEEDH's hard values (notes/assumptions/14.md). -/
theorem hardOperand_eq_some_iff {t : List Char} {h : Bool} :
    hardOperand t = some h ↔ t = [if h then '1' else '0'] := by
  unfold hardOperand
  split
  · cases h <;> simp
  · cases h <;> simp
  next hfalse htrue =>
    simp only [reduceCtorEq, false_iff]
    cases h
    · exact hfalse
    · exact htrue

/-- The FEEDH lines that assemble (R72). -/
theorem assembleTwo_feedh_eq_some_iff {c : Cfg} {a b : List Char} {i : Instr} :
    assembleTwo c ['F', 'E', 'E', 'D', 'H'] a b = some i ↔
      ∃ h0 h1, hardOperand a = some h0 ∧ hardOperand b = some h1 ∧ i = expandFeedh c h0 h1 := by
  cases h0 : hardOperand a <;> cases h1 : hardOperand b <;> simp [assembleTwo, h0, h1, eq_comm]

/-- No operand outside `0` and `1` is a hard value. -/
theorem hardOperand_mem {t : List Char} {h : Bool} (ht : hardOperand t = some h) : t ∈ [['0'], ['1']] := by
  rw [hardOperand_eq_some_iff.mp ht]
  cases h <;> simp

/-- A FEEDH operand that is no hard value gives no command (R72). -/
theorem assembleTwo_feedh_eq_none {c : Cfg} {a b : List Char} (hout : a ∉ [['0'], ['1']] ∨ b ∉ [['0'], ['1']]) :
    assembleTwo c ['F', 'E', 'E', 'D', 'H'] a b = none := by
  refine Option.eq_none_iff_forall_ne_some.mpr fun i hi => ?_
  obtain ⟨h0, h1, ha, hb, -⟩ := assembleTwo_feedh_eq_some_iff.mp hi
  exact hout.elim (fun hout => hout (hardOperand_mem ha)) (fun hout => hout (hardOperand_mem hb))

/-- Settles O52: each line's tokens give its mnemonic's command, and an operand outside the alphabet gives none. -/
theorem assemblerReadsTheOtherCommandLines : Obligations.AssemblerReadsTheOtherCommandLines := by
  refine ⟨fun c m hm => assembleLine_one hm (by decide) (by simp),
    fun c m hm => assembleLine_one hm (by decide) (by simp),
    fun c m a b hm ha hb hab => ?_, fun c m a b hm ha hb hab => ?_⟩ <;>
    rw [assembleLine_two hm (by decide) (by simp) ha hb hab]
  · refine ⟨fun c0 c1 v0 v1 hac hbc h0 h1 => ?_, fun hout => congrArg lineOf (assembleTwo_feedch_eq_none hout)⟩
    have hexpand := expandFeedch_eq_some_iff.mpr ⟨v0, v1, h0, h1, rfl⟩
    exact congrArg lineOf (assembleTwo_feedch_eq_some_iff.mpr ⟨c0, c1, hac, hbc, hexpand⟩)
  · refine ⟨fun h0 h1 hah hbh => ?_, fun hout => congrArg lineOf (assembleTwo_feedh_eq_none hout)⟩
    have hv0 := hardOperand_eq_some_iff.mpr hah
    have hv1 := hardOperand_eq_some_iff.mpr hbh
    exact congrArg lineOf (assembleTwo_feedh_eq_some_iff.mpr ⟨h0, h1, hv0, hv1, rfl⟩)

end Sys2Proof.Machine
end

section
/-! CONFIG_CHECK, the tables of the trellis and the predecessors of a state (R80, R81, R83, R84, R86, R88). -/

namespace Sys2Proof.Machine

open Sys2Proof.Claims

/-! ## CONFIG_CHECK (R80, R81) -/

/-- Where CONFIG_CHECK fails, building answers InvalidCodeConfig (R80, R202). -/
theorem buildInstance_error {c : Cfg} (hc : ¬configValid c = true) :
    buildInstance c = .error .invalidCodeConfig :=
  if_neg hc

/-- Settles O14: the width condition of CONFIG_CHECK is a bound by `2^PM_W`. -/
theorem instancesAreBuiltExactlyForValidConfigurations :
    Obligations.InstancesAreBuiltExactlyForValidConfigurations := by
  intro c
  rw [← bitLength_le_iff (c.S + _), ← configValid_iff]
  exact ⟨fun hc => buildInstance_ok_iff.mpr ⟨hc, rfl⟩, buildInstance_error⟩

/-- A valid configuration takes other generators exactly when their degrees are below `K` (R81). -/
theorem configValid_withGenerators_iff {c : Cfg} (hc : configValid c = true) (g0 g1 : Nat) :
    configValid { c with G0 := g0, G1 := g1 } = true ↔ g0 < 2 ^ c.K ∧ g1 < 2 ^ c.K := by
  obtain ⟨hK, -, -, hrest⟩ := (configValid_iff c).mp hc
  rw [configValid_iff]
  exact ⟨fun ⟨_, h0, h1, _⟩ => ⟨h0, h1⟩, fun ⟨h0, h1⟩ => ⟨hK, h0, h1, hrest⟩⟩

/-- Settles O15: a generator has a set bit at `K` or above exactly when it is not below `2^K`. -/
theorem generatorsOfDegreeKAreRefused : Obligations.GeneratorsOfDegreeKAreRefused := by
  intro c hc
  obtain ⟨-, hG0, hG1, -⟩ := (configValid_iff c).mp hc
  have with0 (g : Nat) : configValid { c with G0 := g } = true ↔ g < 2 ^ c.K := by
    simpa [hG1] using configValid_withGenerators_iff hc g c.G1
  have with1 (g : Nat) : configValid { c with G1 := g } = true ↔ g < 2 ^ c.K := by
    simpa [hG0] using configValid_withGenerators_iff hc c.G0 g
  simp only [← Bool.not_eq_true, with0, with1, and_self]
  refine ⟨fun g ⟨i, hi, hbit⟩ => ?_, fun g hbits => ?_, Nat.two_pow_pos _⟩
  · have hle : 2 ^ c.K ≤ 2 ^ i := Nat.pow_le_pow_right two_pos hi
    exact not_lt.mpr (hle.trans (Nat.ge_two_pow_of_testBit hbit))
  · exact Nat.lt_pow_two_of_testBit g fun i hi => by simpa using hbits i hi

/-! ## NEXT and OUT (R83, R84) -/

/-- The label of R84, its parities counted. -/
theorem outLabel_eq_oddParity (c : Cfg) (s : Nat) (b : Bool) :
    outLabel c s b = ⟨oddParity c.K (c.G0 &&& reg s b), oddParity c.K (c.G1 &&& reg s b)⟩ := by
  simp only [outLabel, parity_eq, oddParity]

/-- The register of a state has `K` bits (R82). -/
theorem reg_lt {c : Cfg} {s : Nat} (b : Bool) (hK : 2 ≤ c.K) (hs : s < c.N) : reg s b < 2 ^ c.K := by
  have hN : 2 ^ c.K = 2 * c.N := by rw [Cfg.N, mul_comm, ← pow_succ, Nat.sub_add_cancel (by omega)]
  have hb := b.toNat_lt
  rw [reg_eq]
  omega

/-- Settles O16: the tables hold the formulas of NEXT and OUT, and `N` is a power of 2. -/
theorem trellisTablesHoldNextAndOut : Obligations.TrellisTablesHoldNextAndOut := by
  intro c s b hc hs
  obtain ⟨hK, -⟩ := (configValid_iff c).mp hc
  refine ⟨buildTrellis_next_length c, buildTrellis_out_length c, buildTrellis_next_at c s b hs,
    (Nat.and_two_pow_sub_one_eq_mod _ _).symm, ?_, reg_lt b hK hs⟩
  exact (buildTrellis_out_at c s b hs).trans (congrArg some (outLabel_eq_oddParity c s b))

/-- Settles O17, by the predecessors in plain arithmetic. -/
theorem everyStateHasTheTwoPredecessors : Obligations.EveryStateHasTheTwoPredecessors := by
  intro c d hc hd
  obtain ⟨hK, -⟩ := (configValid_iff c).mp hc
  have hphi : phi c d = plo d + 2 ^ (c.K - 2) := by rw [phi_eq c d hK hd, plo_eq]
  refine ⟨?_, phi_lt c d hK hd, hphi, fun s b hs => nextState_eq_iff b hK hs hd⟩
  rw [hphi]
  exact Nat.lt_add_of_pos_right (Nat.two_pow_pos _)

/-! ## The all-zero branch (R88, R106) -/

/-- A register of zeros sets no output (R84). -/
theorem outLabel_zero (c : Cfg) : outLabel c 0 false = ⟨false, false⟩ := by
  simp [outLabel_eq_oddParity, reg_eq, oddParity]

/-- Settles O18: the register of zeros leads to state 0, and symbols 0 are at distance 0 from its label. -/
theorem allZeroBranchReturnsToStateZero : Obligations.AllZeroBranchReturnsToStateZero := by
  intro c _
  refine ⟨by simp [nextState, reg_eq], outLabel_zero c, ?_⟩
  simp [outLabel_zero, branchMetric, symbolDistance]

end Sys2Proof.Machine
end

section
/-! The round trip under bounded noise (R89, R144): the encoder's input is the one least sequence of what is
received, so it is what the traceback reads. -/

namespace Sys2Proof.Machine

/-! ## Noise and branch metrics -/

/-- A received pair lies within `noise` of the hard values of a label, symbol by symbol (R72, R89). -/
def WithinNoise (c : Cfg) (noise : Nat) (r : Byte × Byte) (l : Label) : Prop :=
  symbolDistance c (symbolOperand r.1) l.o0 ≤ noise ∧ symbolDistance c (symbolOperand r.2) l.o1 ≤ noise

/-- The two hard values are MAXSYM apart (R72, R100). -/
theorem maxSym_le_symbolDistance_add (c : Cfg) (r : Nat) (o : Bool) :
    c.maxSym ≤ symbolDistance c r o + symbolDistance c r !o := by
  cases o <;> simp [symbolDistance] <;> omega

/-- A symbol within less than MAXSYM / 2 of a hard value is farther from the other. -/
theorem symbolDistance_lt_not {c : Cfg} {r noise : Nat} {o : Bool} (hn : 2 * noise < c.maxSym)
    (hr : symbolDistance c r o ≤ noise) : symbolDistance c r o < symbolDistance c r !o := by
  have := maxSym_le_symbolDistance_add c r o
  omega

/-- So no hard value is nearer. -/
theorem symbolDistance_le_of_near {c : Cfg} {r noise : Nat} {o : Bool} (o' : Bool) (hn : 2 * noise < c.maxSym)
    (hr : symbolDistance c r o ≤ noise) : symbolDistance c r o ≤ symbolDistance c r o' := by
  rcases Bool.eq_or_eq_not o' o with rfl | rfl
  · exact le_rfl
  · exact (symbolDistance_lt_not hn hr).le

/-- And a different one is farther. -/
theorem symbolDistance_lt_of_near {c : Cfg} {r noise : Nat} {o o' : Bool} (hn : 2 * noise < c.maxSym)
    (hr : symbolDistance c r o ≤ noise) (hne : o ≠ o') : symbolDistance c r o < symbolDistance c r o' :=
  Bool.eq_not.mpr hne.symm ▸ symbolDistance_lt_not hn hr

section
variable {c : Cfg} {noise : Nat} {r : Byte × Byte} {l : Label} (hn : 2 * noise < c.maxSym)
include hn

/-- No label has a lower branch metric than the one that was sent. -/
theorem WithinNoise.branchMetric_le (h : WithinNoise c noise r l) (l' : Label) :
    branchMetric c (symbolOperand r.1) (symbolOperand r.2) l ≤
      branchMetric c (symbolOperand r.1) (symbolOperand r.2) l' :=
  Nat.add_le_add (symbolDistance_le_of_near l'.o0 hn h.1) (symbolDistance_le_of_near l'.o1 hn h.2)

/-- Every other label has a greater one. -/
theorem WithinNoise.branchMetric_lt (h : WithinNoise c noise r l) {l' : Label} (hne : l ≠ l') :
    branchMetric c (symbolOperand r.1) (symbolOperand r.2) l <
      branchMetric c (symbolOperand r.1) (symbolOperand r.2) l' := by
  obtain ⟨h0, h1⟩ := h
  by_cases hne0 : l.o0 = l'.o0
  · have hne1 : l.o1 ≠ l'.o1 := fun hne1 => hne (by cases l; cases l'; simp_all)
    exact Nat.add_lt_add_of_le_of_lt (symbolDistance_le_of_near _ hn h0) (symbolDistance_lt_of_near hn h1 hne1)
  · exact Nat.add_lt_add_of_lt_of_le (symbolDistance_lt_of_near hn h0 hne0) (symbolDistance_le_of_near _ hn h1)

end

/-! ## A code that taps the current bit -/

/-- A generator taps the current input bit (R9). -/
def TapsCurrentBit (c : Cfg) : Prop := c.G0.testBit 0 = true ∨ c.G1.testBit 0 = true

/-- The current bit's part of a generator's output, and the part of the memory (R84). -/
theorem parity_reg (k g s : Nat) (b : Bool) :
    parity (k + 1) (g &&& reg s b) = ((g.testBit 0 && b) ^^ parity k (g / 2 &&& s)) := by
  have hreg : reg s b = tableIndex s b := reg_eq s b
  have hlow (x : Nat) : (x % 2 == 1) = x.testBit 0 := (Nat.testBit_zero x).symm
  rw [parity, Nat.and_div_two, hreg, tableIndex_div, hlow, Nat.testBit_and, ← hlow (tableIndex s b), tableIndex_bit]

/-- The parity of a generator that taps the current bit tells the two inputs apart. -/
theorem parity_reg_inj {k g s : Nat} {b b' : Bool} (hk : 0 < k) (hg : g.testBit 0 = true)
    (h : parity k (g &&& reg s b) = parity k (g &&& reg s b')) : b = b' := by
  obtain ⟨k, rfl⟩ := Nat.exists_eq_add_one.mpr hk
  simpa [parity_reg, hg] using h

/-- The labels of the two branches out of a state differ. -/
theorem outLabel_inj {c : Cfg} (hc : configValid c = true) (htap : TapsCurrentBit c) {s : Nat} {b b' : Bool}
    (h : outLabel c s b = outLabel c s b') : b = b' := by
  have hK : 0 < c.K := two_pos.trans_le ((configValid_iff c).mp hc).1
  rcases htap with htap | htap
  · exact parity_reg_inj hK htap (congrArg Label.o0 h)
  · exact parity_reg_inj hK htap (congrArg Label.o1 h)

/-! ## The sent sequence is the one of least metric -/

/-- No inputs from any state cost less than the sent ones. -/
theorem pathMetric_le_of_withinNoise {c : Cfg} {noise : Nat} (hn : 2 * noise < c.maxSym) :
    ∀ {bits : List Bool} {rs : List (Byte × Byte)} {p : Nat},
      List.Forall₂ (WithinNoise c noise) rs (encodeFrom c p bits) →
      ∀ (bits' : List Bool) (q : Nat), bits'.length = bits.length →
        pathMetric c p bits rs ≤ pathMetric c q bits' rs
  | [], _, _, _, _, _, _ => by simp [pathMetric]
  | b :: bits, r :: rs, p, .cons hr hrs, b' :: bits', q, hlen =>
    Nat.add_le_add (hr.branchMetric_le hn _)
      (pathMetric_le_of_withinNoise hn hrs bits' _ (Nat.succ.inj hlen))

/-- Other inputs from the same state cost more: their labels differ where the inputs first do. -/
theorem pathMetric_lt_of_withinNoise {c : Cfg} {noise : Nat} (hn : 2 * noise < c.maxSym)
    (hc : configValid c = true) (htap : TapsCurrentBit c) :
    ∀ {bits : List Bool} {rs : List (Byte × Byte)} {p : Nat},
      List.Forall₂ (WithinNoise c noise) rs (encodeFrom c p bits) →
      ∀ bits' : List Bool, bits'.length = bits.length → bits' ≠ bits →
        pathMetric c p bits rs < pathMetric c p bits' rs
  | [], _, _, _, bits', hlen, hne => absurd (List.length_eq_zero_iff.mp hlen) hne
  | b :: bits, r :: rs, p, .cons hr hrs, b' :: bits', hlen, hne => by
    replace hlen : bits'.length = bits.length := Nat.succ.inj hlen
    by_cases hb : b = b'
    · subst hb
      have hrest := pathMetric_lt_of_withinNoise hn hc htap hrs bits' hlen (fun h => hne (h ▸ rfl))
      exact Nat.add_lt_add_left hrest _
    · exact Nat.add_lt_add_of_lt_of_le (hr.branchMetric_lt hn fun h => hb (outLabel_inj hc htap h))
        (pathMetric_le_of_withinNoise hn hrs bits' _ hlen)

/-! ## The responses -/

/-- The last input sends the label of the last transition (R89). -/
theorem encodeFrom_concat (c : Cfg) (b : Bool) : ∀ (p : Nat) (bits : List Bool),
    encodeFrom c p (bits ++ [b]) = encodeFrom c p bits ++ [outLabel c (encoderState c p bits) b]
  | _, [] => rfl
  | p, a :: bits => congrArg (outLabel c p a :: ·) (encodeFrom_concat c b (nextState c p a) bits)

theorem encodeFrom_length (c : Cfg) : ∀ (p : Nat) (bits : List Bool), (encodeFrom c p bits).length = bits.length
  | _, [] => rfl
  | p, b :: bits => congrArg Nat.succ (encodeFrom_length c (nextState c p b) bits)

/-- Each pair of a sequence is one FEED more after those before it. -/
theorem feedWords_concat (rs : List (Byte × Byte)) (r : Byte × Byte) :
    feedWords (rs ++ [r]) = feedWords rs ++ [encode (.feed r.1 r.2)] :=
  List.map_append

/-- The words that answer `bits` with a delay of `depth` FEEDs (R144). -/
def delayedWords (depth : Nat) (bits : List Bool) : List Word :=
  List.replicate (min depth bits.length) 0x00000000#32 ++
    (bits.take (bits.length - depth)).map fun b => Claims.resultWord (some b)

/-- While fewer than `depth` bits came, one more is answered by no output. -/
theorem delayedWords_concat_priming {depth : Nat} {bits : List Bool} (b : Bool) (h : bits.length < depth) :
    delayedWords depth (bits ++ [b]) = delayedWords depth bits ++ [0x00000000#32] := by
  have hnow : bits.length - depth = 0 := by omega
  have hnext : bits.length + 1 - depth = 0 := by omega
  have hmin : min depth (bits.length + 1) = bits.length + 1 := min_eq_right h
  simp [delayedWords, hnow, hnext, hmin, min_eq_right h.le, List.replicate_succ']

/-- From then on, by the bit `depth` places back. -/
theorem delayedWords_concat_primed {depth : Nat} {bits : List Bool} (b : Bool) {x : Bool} (h0 : 0 < depth)
    (h : depth ≤ bits.length) (hx : bits[bits.length - depth]? = some x) :
    delayedWords depth (bits ++ [b]) = delayedWords depth bits ++ [Claims.resultWord (some x)] := by
  have hnext : bits.length + 1 - depth = bits.length - depth + 1 := by omega
  have htake : (bits ++ [b]).take (bits.length - depth + 1) = bits.take (bits.length - depth) ++ [x] := by
    rw [List.take_append_of_le_length (by omega), List.take_add_one, hx, Option.toList_some]
  simp [delayedWords, hnext, htake, min_eq_left h, min_eq_left (Nat.le_succ_of_le h)]

/-- While priming, the FEED after a run of FEEDs answers no output (R143, R161). -/
theorem feed_answers_nothing_of_lt {c : Cfg} {rs : List (Byte × Byte)} {r0 r1 : Byte} (hc : configValid c = true)
    (hl : legalPairs c rs = true) (hr : symbolsInRange c r0 r1 = true) (hlen : rs.length < c.D) :
    ∃ s t, runCommands (builtState c) (feedWords rs) = .next s ∧
      step (present (encode (.feed r0 r1)) s) = .next t ∧ t.output = s.output ++ [0x00000000#32] := by
  obtain ⟨s, hrun, rfl, hs⟩ := State.Tracks.run rs (builtState_tracks hc) hl
  have hp : s.pcnt < s.cfg.D := by
    have hcount := hs.count
    rw [List.nil_append] at hcount
    exact hcount ▸ (min_le_left ..).trans_lt hlen
  obtain ⟨out, hout, hcycle⟩ := hs.inv.feedCycle_eq (symbolOperand r0) (symbolOperand r1)
  obtain rfl : none = out := Option.some.inj ((feedOutput_priming hp).symm.trans hout)
  exact ⟨s, _, hrun, hs.inv.step_feed hr, by simp [hcycle]⟩

/-- The FEED after the noisy pairs of `bits` answers what the delayed words go on with: the least sequence, whose
bit a primed FEED answers, is `bits`. -/
theorem feed_answers_delayed {c : Cfg} {bits : List Bool} {rs : List (Byte × Byte)} {noise : Nat} {r : Byte × Byte}
    (hc : configValid c = true) (htap : TapsCurrentBit c) (hn : 2 * noise < c.maxSym)
    (hl : legalPairs c rs = true) (hr : symbolsInRange c r.1 r.2 = true)
    (hclose : List.Forall₂ (WithinNoise c noise) rs (encodeBits c bits)) (b : Bool) :
    ∃ s t w, runCommands (builtState c) (feedWords rs) = .next s ∧
      step (present (encode (.feed r.1 r.2)) s) = .next t ∧ t.output = s.output ++ [w] ∧
      delayedWords c.D (bits ++ [b]) = delayedWords c.D bits ++ [w] := by
  have hlen : rs.length = bits.length := hclose.length_eq.trans (encodeFrom_length c 0 bits)
  rcases Nat.lt_or_ge rs.length c.D with hp | hp
  · obtain ⟨s, t, hrun, hstep, hout⟩ := feed_answers_nothing_of_lt hc hl hr hp
    exact ⟨s, t, _, hrun, hstep, hout, delayedWords_concat_priming b (hlen ▸ hp)⟩
  · obtain ⟨s, t, least, x, hrun, hstep, hout, hlength, hx, hleast⟩ :=
      decodedBitLiesOnALeastMetricSequence c rs r.1 r.2 hc hl hr hp
    obtain rfl : least = bits := by
      by_contra hne
      have hlt := pathMetric_lt_of_withinNoise hn hc htap hclose least (hlength.trans hlen) hne
      exact absurd (hleast bits hlen.symm) hlt.not_ge
    obtain ⟨-, -, -, -, -, hD, -⟩ := (configValid_iff c).mp hc
    rw [hlen] at hx hp
    exact ⟨s, t, _, hrun, hstep, hout, delayedWords_concat_primed b hD hp hx⟩

/-- Settles O50, by induction on the input, one bit more at its end. -/
theorem roundTripSurvivesBoundedNoise : Obligations.RoundTripSurvivesBoundedNoise := by
  intro c bits rs noise hc htap hn hl hclose
  change ∃ t, runCommands (builtState c) (feedWords rs) = .next t ∧ t.output = delayedWords c.D bits
  induction bits using List.reverseRecOn generalizing rs with
  | nil =>
    obtain rfl : rs = [] := List.forall₂_nil_right_iff.mp hclose
    exact ⟨builtState c, rfl, by simp [delayedWords]⟩
  | append_singleton bits b ih =>
    rw [encodeBits, encodeFrom_concat] at hclose
    obtain ⟨init, r, rfl⟩ : ∃ init r, rs = init ++ [r] :=
      rs.eq_nil_or_concat'.resolve_left fun hnil => by simp [hnil] at hclose
    obtain ⟨hinit, hr⟩ : legalPairs c init = true ∧ symbolsInRange c r.1 r.2 = true := by
      simpa [legalPairs] using hl
    have hlen : init.length = (encodeFrom c 0 bits).length := by simpa using hclose.length_eq
    have hprefix := List.forall₂_take_append _ _ _ hclose
    rw [List.take_left' hlen] at hprefix
    obtain ⟨s, hrun, hout⟩ := ih init hinit hprefix
    obtain ⟨s', t, w, hrun', hstep, htout, hw⟩ := feed_answers_delayed hc htap hn hinit hr hprefix b
    obtain rfl : s = s' := Host.Outcome.next.inj (hrun.symm.trans hrun')
    refine ⟨t, ?_, by rw [htout, hout, hw]⟩
    rw [feedWords_concat, runCommands_append hrun, runCommands_cons hstep, runCommands]

end Sys2Proof.Machine
end

section
/-! The branch metric (R100 to R105) and the symbol check in front of it (R101, R203). -/

namespace Sys2Proof.Machine

open Sys2Proof.Claims

/-! ## The distance of one symbol (R100, R102) -/

theorem symbolDistance_false (c : Cfg) (r : Nat) : symbolDistance c r false = r := by simp [symbolDistance]

theorem symbolDistance_true {c : Cfg} {r : Nat} (hr : r ≤ c.maxSym) : symbolDistance c r true = c.maxSym - r := by
  rw [symbolDistance, Bool.toNat_true, one_mul]
  omega

/-- A legal symbol's distance is the unsigned term of R102. -/
theorem symbolDistance_eq_hardDistance {c : Cfg} {r : Nat} (o : Bool) (hr : r ≤ c.maxSym) :
    symbolDistance c r o = hardDistance c r o := by
  cases o with
  | false => exact symbolDistance_false c r
  | true => exact symbolDistance_true hr

/-- The distance as an absolute value over the integers (R100). -/
theorem symbolDistance_cast (c : Cfg) (r : Nat) (o : Bool) :
    (symbolDistance c r o : Int) = |(r : Int) - o.toNat * (2 ^ c.B - 1 : Int)| := by
  have hmax : (c.maxSym : Int) = 2 ^ c.B - 1 := by simp [Cfg.maxSym, Nat.cast_sub Nat.one_le_two_pow]
  rw [symbolDistance, Int.natCast_natAbs, Nat.cast_mul, hmax]

/-- A hard value is at distance 0 from itself (R72, R100). -/
theorem symbolDistance_hardSymbol (c : Cfg) (o : Bool) : symbolDistance c (hardSymbol c o) o = 0 := by
  simp [symbolDistance, hardSymbol]

/-- MAXSYM is odd, so no symbol is as far from one hard value as from the other (R100). -/
theorem hardDistance_false_ne_true {c : Cfg} {r : Nat} (hB : 1 ≤ c.B) (hr : r ≤ c.maxSym) :
    hardDistance c r false ≠ hardDistance c r true := by
  have heven : 2 ^ c.B = 2 * 2 ^ (c.B - 1) := by rw [← pow_succ', Nat.sub_add_cancel hB]
  have hpos := Nat.two_pow_pos c.B
  change r ≤ 2 ^ c.B - 1 at hr
  change r ≠ 2 ^ c.B - 1 - r
  omega

/-- Away from a hard 0 is up (R105). -/
theorem symbolDistance_false_add (c : Cfg) {r r' : Nat} (h : r ≤ r') :
    symbolDistance c r false + (r' - r) = symbolDistance c r' false := by
  simp only [symbolDistance_false]
  omega

/-- Away from a hard 1 is down (R105). -/
theorem symbolDistance_true_add {c : Cfg} {r r' : Nat} (h : r ≤ r') (hr' : r' ≤ c.maxSym) :
    symbolDistance c r' true + (r' - r) = symbolDistance c r true := by
  rw [symbolDistance_true hr', symbolDistance_true (h.trans hr')]
  omega

/-- With MAXSYM = 1 the distance of a bit says whether it differs (R104). -/
theorem symbolDistance_toNat {c : Cfg} (hmax : c.maxSym = 1) (x o : Bool) :
    symbolDistance c x.toNat o = if x = o then 0 else 1 := by
  rw [symbolDistance, hmax]
  revert x o
  decide

/-! ## BM -/

/-- Settles O21: each clause is that of one symbol's distance, added over the two. -/
theorem branchMetricIsTheSumOfUnsignedTerms : Obligations.BranchMetricIsTheSumOfUnsignedTerms := by
  intro c r0 r1 l h0 h1
  have hle : branchMetric c r0 r1 l ≤ 2 * c.maxSym := by
    have d0 := symbolDistance_le l.o0 h0
    have d1 := symbolDistance_le l.o1 h1
    rw [branchMetric]
    omega
  have hfits : 2 * c.maxSym < 2 ^ (c.B + 1) := by
    rw [pow_succ']
    exact Nat.mul_lt_mul_of_pos_left (lt_two_pow_of_le_maxSym le_rfl) two_pos
  refine ⟨?_, ?_, hle, hle.trans_lt hfits, ?_, ?_, fun hB => hardDistance_false_ne_true hB h0⟩
  · rw [branchMetric, symbolDistance_eq_hardDistance _ h0, symbolDistance_eq_hardDistance _ h1]
  · rw [branchMetric, Nat.cast_add, symbolDistance_cast, symbolDistance_cast]
  · exact congrArg₂ (· + ·) (symbolDistance_hardSymbol c l.o0) (symbolDistance_hardSymbol c l.o1)
  · rw [branchMetric, symbolDistance_false, ← two_mul, Cfg.maxSym]

/-- Settles O22: the symbol that moves changes its own term by the way it moves, and the other term stays. -/
theorem branchMetricIsMonotonic : Obligations.BranchMetricIsMonotonic := by
  intro c r r' other l _ hr' _ h
  have up := symbolDistance_false_add c h
  have down := symbolDistance_true_add h hr'
  unfold branchMetric
  refine ⟨fun ho => ?_, fun ho => ?_, fun ho => ?_, fun ho => ?_⟩
  · rw [ho, Nat.add_right_comm, up]
  · rw [ho, Nat.add_right_comm, down]
  · rw [ho, Nat.add_assoc, up]
  · rw [ho, Nat.add_assoc, down]

/-- Settles O23: with B = 1 each symbol's distance counts one differing place. -/
theorem hardDecisionMetricIsTheHammingDistance : Obligations.HardDecisionMetricIsTheHammingDistance := by
  intro c x0 x1 l hB
  have hmax : c.maxSym = 1 := by simp [Cfg.maxSym, hB]
  exact ⟨hmax, congrArg₂ (· + ·) (symbolDistance_toNat hmax x0 l.o0) (symbolDistance_toNat hmax x1 l.o1)⟩

/-! ## The BM vector of a FEED (R103) -/

/-- The label of a transition is that of R84's formula. -/
theorem outLabel_eq_expectedLabel (c : Cfg) (p : Nat) (b : Bool) : outLabel c p b = expectedLabel c p b := by
  rw [outLabel_eq_oddParity, reg_eq, expectedLabel, register]

/-- BMV[p][b] of a built instance, with its place in the vector (R85, R103). -/
theorem bmVector_buildTrellis_at {c : Cfg} {p : Nat} (r0 r1 : Nat) (b : Bool) (hp : p < c.N) :
    (bmVector c (buildTrellis c) r0 r1)[tableIndex p b]? = some (branchMetric c r0 r1 (outLabel c p b)) := by
  rw [bmVector, List.getElem?_map, buildTrellis_out_at c p b hp, Option.map_some]

/-- Settles O24: under the invariant the tables are the built ones. -/
theorem branchMetricVectorHoldsTheMetricOfEveryLabel : Obligations.BranchMetricVectorHoldsTheMetricOfEveryLabel := by
  intro s r0 r1 p b h hp
  rw [h.tables, ← outLabel_eq_expectedLabel]
  exact bmVector_buildTrellis_at r0 r1 b hp

/-! ## The symbol check (R101, R203) -/

/-- A FEED that fails the symbol check raises INVALID_SYMBOL (R101, R203). -/
theorem execFeed_rejects {r0 r1 : Byte} {s : State} (hr : symbolsInRange s.cfg r0 r1 = false) :
    execFeed r0 r1 s = .next (s.raise .invalidSymbol) := by
  simp [execFeed, hr]

/-- Settles O29: the check fails, and raising INVALID_SYMBOL only answers its code. -/
theorem feedRejectsSymbolsAboveTheMaximum : Obligations.FeedRejectsSymbolsAboveTheMaximum := by
  intro s r0 r1 habove
  have hr : symbolsInRange s.cfg r0 r1 = false := by
    rw [← Bool.not_eq_true, symbolsInRange_iff, not_and_or, not_le, not_le]
    exact habove
  change execFeed r0 r1 s = _
  rw [execFeed_rejects hr, raise_invalidSymbol, State.respond, responseWord_invalidSymbol]

end Sys2Proof.Machine
end

section
/-! ACS_STEP by plain indices, and what normalization leaves as it was (R120, R121, R123, R124). -/

namespace Sys2Proof.Machine

/-! ## ACS_STEP by plain indices (R120, R121) -/

/-- A candidate is the sum of two entries, those that R120 names, where both vectors are of full size. -/
theorem exists_candidate {c : Cfg} {pm bmv : List Nat} {p : Nat} (d : Nat) (hpm : pm.length = c.N)
    (hbmv : bmv.length = 2 * c.N) (hp : p < c.N) :
    ∃ q e, pm[p]? = some q ∧ bmv[2 * p + d % 2]? = some e ∧ candidate pm bmv p d = q + e := by
  have hindex : tableIndex p (inputBit d) = 2 * p + d % 2 := by
    rcases Nat.mod_two_eq_zero_or_one d with h | h <;> simp [tableIndex, inputBit, h]
  have hq := List.getElem?_eq_getElem (l := pm) (i := p) (by omega)
  have he := List.getElem?_eq_getElem (l := bmv) (i := 2 * p + d % 2) (by omega)
  exact ⟨_, _, hq, he, by simp [candidate, pmRead, bmRead, hindex, hq, he]⟩

/-- Settles O25: both predecessors are states, so both candidates are sums of entries, and the selection is the
lower. -/
theorem acsSelectsTheLowerCandidateLowStateOnTies : Obligations.AcsSelectsTheLowerCandidateLowStateOnTies := by
  intro c pm bmv d hc hpm hbmv hd
  obtain ⟨hK, -⟩ := (configValid_iff c).mp hc
  obtain ⟨q0, e0, hq0, he0, hlow⟩ := exists_candidate d hpm hbmv (plo_lt c d hd)
  obtain ⟨q1, e1, hq1, he1, hhigh⟩ := exists_candidate d hpm hbmv (phi_lt c d hK hd)
  have hsel := select_cases c pm bmv d
  rw [hlow, hhigh] at hsel
  rw [plo_eq] at hq0 he0 hsel
  rw [phi_eq c d hK hd] at hq1 he1 hsel
  refine ⟨q0, q1, e0, e1, hq0, hq1, he0, he1, ?_⟩
  rw [acsStep_at c pm bmv d hd]
  rcases hsel with ⟨hle, hsel⟩ | ⟨hlt, hsel⟩
  · rw [hsel, if_pos hle, inputBit]
  · rw [hsel, if_neg hlt.not_ge, inputBit]

/-! ## Normalization (R123, R124) -/

/-- No place of the least element comes before the start of the traceback (R16). -/
theorem argminLow_le {v : List Nat} {i : Nat} (h : v[i]? = some (minMetric v)) : argminLow v ≤ i := by
  have hne : v ≠ [] := List.ne_nil_of_mem (List.mem_of_getElem? h)
  exact not_lt.mp fun hi => (argminLow_spec hne).2 i hi h

/-- Normalization moves no place of the least element (R124). -/
theorem normalize_at_min_iff {v : List Nat} (hne : v ≠ []) (i : Nat) :
    (normalize v)[i]? = some (minMetric (normalize v)) ↔ v[i]? = some (minMetric v) := by
  rw [minMetric_normalize hne, normalize, List.getElem?_map, Option.map_eq_some_iff]
  constructor
  · rintro ⟨x, hx, hzero⟩
    have hle := minMetric_le (List.mem_of_getElem? hx)
    rw [hx, Option.some_inj]
    omega
  · exact fun h => ⟨_, h, Nat.sub_self _⟩

/-- So the traceback starts where it would have (R124, R141). -/
theorem argminLow_normalize {v : List Nat} (hne : v ≠ []) : argminLow (normalize v) = argminLow v := by
  have hne' : normalize v ≠ [] := by simpa [normalize] using hne
  exact le_antisymm (argminLow_le ((normalize_at_min_iff hne _).mpr (argminLow_spec hne).1))
    (argminLow_le ((normalize_at_min_iff hne _).mp (argminLow_spec hne').1))

/-- Every candidate is lower by the offset after normalization (R124). -/
theorem candidate_normalize {pm : List Nat} {p : Nat} (bmv : List Nat) (d : Nat) (hp : p < pm.length) :
    candidate pm bmv p d = candidate (normalize pm) bmv p d + minMetric pm := by
  have hread := pmRead_normalize (List.getElem?_eq_getElem hp)
  have hpm : pmRead pm p = pm[p] := by simp [pmRead, hp]
  rw [candidate, candidate, hpm]
  omega

/-- A selection with its metric raised by an offset. -/
def Selected.raisedBy (m : Nat) (e : Selected) : Selected := { e with metric := e.metric + m }

/-- ACS_STEP selects the same from normalized metrics, at metrics lower by the offset (R124). -/
theorem acsStep_normalize {c : Cfg} {pm : List Nat} (bmv : List Nat) (hK : 2 ≤ c.K) (hpm : pm.length = c.N) :
    acsStep c pm bmv = (acsStep c (normalize pm) bmv).map (Selected.raisedBy (minMetric pm)) := by
  rw [acsStep, acsStep, List.map_map]
  refine List.map_congr_left fun d hd => ?_
  rw [List.mem_range] at hd
  have hlow : plo d < pm.length := hpm ▸ plo_lt c d hd
  have hhigh : phi c d < pm.length := hpm ▸ phi_lt c d hK hd
  rw [Function.comp_apply, select, select, candidate_normalize bmv d hlow, candidate_normalize bmv d hhigh]
  simp only [Nat.add_le_add_iff_right]
  split
  · rfl
  · rfl

/-- Settles O26: places of the least element stay, and so do the comparisons of every selection. -/
theorem normalizationChangesNoComparison : Obligations.NormalizationChangesNoComparison := by
  intro c pm bmv hc hpm
  obtain ⟨hK, -⟩ := (configValid_iff c).mp hc
  have hne : pm ≠ [] := List.ne_nil_of_length_pos (hpm ▸ N_pos c)
  have hne' : normalize pm ≠ [] := by simpa [normalize] using hne
  have hmin := minMetric_normalize hne
  refine ⟨hmin ▸ minMetric_mem hne', hmin, argminLow_normalize hne, ?_, ?_, minMetric_resetPM c⟩
  · rw [acsStep_normalize bmv hK hpm, survivors, survivors, List.map_map]
    rfl
  · rw [acsStep_normalize bmv hK hpm, newMetrics, newMetrics, List.map_map, List.map_map]
    rfl

end Sys2Proof.Machine
end

section
/-! Which states input sequences from state 0 reach, and PM as the least cost over those sequences (R125, R126). -/

namespace Sys2Proof.Machine

/-! ## What CONFIG_CHECK says of the metrics (R80) -/

/-- The sentinel exceeds what `K - 1` transitions can cost (R12). -/
theorem lt_sentinel {c : Cfg} (hc : configValid c = true) : (c.K - 1) * c.bmMax < c.S := by
  obtain ⟨-, -, -, -, -, -, hS, -⟩ := (configValid_iff c).mp hc
  rwa [Cfg.bmMax, Cfg.maxSym, ← mul_assoc]

/-- The bound of the candidates fits a path-metric register (R13). -/
theorem bound_lt_two_pow {c : Cfg} (hc : configValid c = true) : c.S + (c.K - 1) * c.bmMax < 2 ^ c.PM_W := by
  obtain ⟨-, -, -, -, -, -, -, hW⟩ := (configValid_iff c).mp hc
  rwa [bitLength_le_iff, mul_assoc] at hW

/-! ## Reachable states -/

/-- From a state below `2^i`, `n` inputs lead to a state below `2^(i + n)` (R83). -/
theorem encoderState_lt_two_pow {c : Cfg} : ∀ (bits : List Bool) {p i : Nat}, p < 2 ^ i →
    encoderState c p bits < 2 ^ (i + bits.length)
  | [], _, _, hp => hp
  | b :: bits, p, i, hp => by
    have hle : nextState c p b ≤ 2 * p + b.toNat := reg_eq p b ▸ Nat.mod_le _ _
    have hb := b.toNat_lt
    have hnext : nextState c p b < 2 ^ (i + 1) := by
      rw [pow_succ']
      omega
    have hrest := encoderState_lt_two_pow (c := c) bits hnext
    rwa [Nat.add_assoc, Nat.add_comm 1] at hrest

/-- What an input sequence leads to from state 0 is reachable. -/
theorem reachableAt_encoderState (c : Cfg) (bits : List Bool) :
    reachableAt c bits.length (encoderState c 0 bits) := by
  refine ⟨encoderState_lt bits (N_pos c), fun _ => ?_⟩
  have h := encoderState_lt_two_pow (c := c) (i := 0) bits Nat.one_pos
  rwa [Nat.zero_add] at h

/-- From `K - 1` inputs on every state is reachable. -/
theorem reachableAt_of_le {c : Cfg} {t d : Nat} (ht : c.K - 1 ≤ t) (hd : d < c.N) : reachableAt c t d :=
  ⟨hd, fun hlt => absurd ht hlt.not_ge⟩

/-- A state is unreachable only while fewer than `K - 1` inputs came. -/
theorem lt_of_not_reachableAt {c : Cfg} {t d : Nat} (hd : d < c.N) (h : ¬reachableAt c t d) : t < c.K - 1 :=
  not_le.mp fun ht => h (reachableAt_of_le ht hd)

/-- States that agree in their lowest `i` bits agree in one more after the same input, up to all `K - 1`. -/
theorem nextState_modEq_min {c : Cfg} {i p q : Nat} (b : Bool) (h : p ≡ q [MOD 2 ^ min i (c.K - 1)]) :
    nextState c p b ≡ nextState c q b [MOD 2 ^ min (i + 1) (c.K - 1)] := by
  rcases Nat.lt_or_ge i (c.K - 1) with hi | hi
  · rw [min_eq_left hi.le] at h
    rw [min_eq_left hi]
    exact nextState_modEq b hi h
  · rw [min_eq_right (by omega)] at h ⊢
    rcases Nat.eq_zero_or_pos (c.K - 1) with h0 | hpos
    · simp [h0, Nat.modEq_one]
    · have hlast := nextState_modEq (c := c) (i := c.K - 2) b (by omega) (h.of_dvd (pow_dvd_pow 2 (by omega)))
      rwa [show c.K - 2 + 1 = c.K - 1 by omega] at hlast

/-- The same inputs from any two states lead to states that agree in as many bits as there are inputs. -/
theorem encoderState_modEq {c : Cfg} : ∀ (bits : List Bool) {i p q : Nat}, p ≡ q [MOD 2 ^ min i (c.K - 1)] →
    encoderState c p bits ≡ encoderState c q bits [MOD 2 ^ min (i + bits.length) (c.K - 1)]
  | [], _, _, _, h => h
  | b :: bits, i, p, q, h => by
    have hrest := encoderState_modEq bits (nextState_modEq_min b h)
    rwa [Nat.add_assoc, Nat.add_comm 1] at hrest

/-- Inputs that lead to a reachable state lead to it from state 0 too. -/
theorem encoderState_zero_of_reachable {c : Cfg} {p : Nat} {bits : List Bool}
    (h : reachableAt c bits.length (encoderState c p bits)) : encoderState c 0 bits = encoderState c p bits := by
  obtain ⟨hN, hlow⟩ := h
  obtain ⟨hN', hlow'⟩ := reachableAt_encoderState c bits
  have hmod := encoderState_modEq (c := c) (i := 0) (p := 0) (q := p) bits (by simp [Nat.modEq_one])
  rw [Nat.zero_add] at hmod
  rcases Nat.lt_or_ge bits.length (c.K - 1) with hlen | hlen
  · rw [min_eq_left hlen.le] at hmod
    exact hmod.eq_of_lt_of_lt (hlow' hlen) (hlow hlen)
  · rw [min_eq_right hlen] at hmod
    exact hmod.eq_of_lt_of_lt hN' hN

/-! ## Costs -/

/-- A sequence costs at most BMMAX for each pair (R100). -/
theorem pathMetric_le {c : Cfg} : ∀ (bits : List Bool) {rs : List (Byte × Byte)} (p : Nat),
    legalPairs c rs = true → pathMetric c p bits rs ≤ rs.length * c.bmMax
  | [], _, _, _ => by simp [pathMetric]
  | _ :: _, [], _, _ => by simp [pathMetric]
  | b :: bits, r :: rs, p, hl => by
    simp only [legalPairs, List.all_cons, Bool.and_eq_true] at hl
    have hstep := branchMetric_le (outLabel c p b) hl.1
    have hrest := pathMetric_le bits (nextState c p b) hl.2
    rw [pathMetric, List.length_cons, Nat.succ_mul]
    omega

/-- From state 0 a sequence costs its branch metrics alone (R37). -/
theorem sequenceCost_zero (c : Cfg) (bits : List Bool) (rs : List (Byte × Byte)) :
    sequenceCost c 0 bits rs = pathMetric c 0 bits rs := by
  rw [sequenceCost, resetPM_read (N_pos c), if_pos rfl, Nat.zero_add]

/-- From any other state it costs the sentinel besides. -/
theorem sequenceCost_sentinel {c : Cfg} {p : Nat} (bits : List Bool) (rs : List (Byte × Byte)) (hp : p < c.N)
    (h0 : p ≠ 0) : sequenceCost c p bits rs = c.S + pathMetric c p bits rs := by
  rw [sequenceCost, resetPM_read hp, if_neg h0]

/-! ## PM by sequences from state 0 -/

/-- Inputs that attain PM of a reachable state lead to it from state 0. -/
theorem State.Realizes.leads_from_zero {s : State} {past : List (Byte × Byte)} {off d p : Nat} {bits : List Bool}
    (hr : s.Realizes past off d p bits) (hd : reachableAt s.cfg past.length d) : encoderState s.cfg 0 bits = d :=
  (encoderState_zero_of_reachable (by rwa [hr.leads, hr.length])).trans hr.leads

section
variable {s : State} {past : List (Byte × Byte)} {off : Nat} (h : s.Tracks past off)
include h

/-- No sequence from state 0 costs less than PM says of where it leads (R125). -/
theorem State.Tracks.le_pathMetric {bits : List Bool} (hlen : bits.length = past.length) :
    pmRead s.pm (encoderState s.cfg 0 bits) + off ≤ pathMetric s.cfg 0 bits past :=
  sequenceCost_zero s.cfg bits past ▸ h.least 0 (N_pos s.cfg) bits hlen

/-- PM of a reachable state is attained from state 0: the sentinel makes every other start too dear (R125). -/
theorem State.Tracks.attained_from_zero (hl : legalPairs s.cfg past = true) {d : Nat}
    (hd : reachableAt s.cfg past.length d) :
    ∃ bits : List Bool, bits.length = past.length ∧ encoderState s.cfg 0 bits = d ∧
      pathMetric s.cfg 0 bits past = pmRead s.pm d + off := by
  obtain ⟨p, bits, hr⟩ := h.attained d hd.1
  have hcost := hr.cost
  have hp : p = 0 := by
    by_contra h0
    have hlt := pathMetric_zero_lt bits h.inv.config hl hr.start h0
    have hle := h.le_pathMetric hr.length
    rw [hr.leads_from_zero hd, hcost] at hle
    exact hlt.not_ge hle
  subst hp
  rw [sequenceCost_zero] at hcost
  exact ⟨bits, hr.length, hr.leads, hcost.symm⟩

/-- PM of a state that is not reachable holds the sentinel (R125). -/
theorem State.Tracks.sentinel_le {d : Nat} (hd : d < s.cfg.N) (hnot : ¬reachableAt s.cfg past.length d) :
    s.cfg.S ≤ pmRead s.pm d + off := by
  obtain ⟨p, bits, hr⟩ := h.attained d hd
  have h0 : p ≠ 0 := by
    rintro rfl
    exact hnot (hr.leads ▸ hr.length ▸ reachableAt_encoderState s.cfg bits)
  rw [hr.cost, sequenceCost_sentinel bits past hr.start h0]
  exact Nat.le_add_right _ _

/-- The survivor that a FEED records for a reachable state comes from a reachable state: through any other
predecessor it would cost the sentinel, which no sequence of so few inputs does (R125). -/
theorem State.Tracks.survivor_reachable {r : Byte × Byte} (hl : legalPairs s.cfg (past ++ [r]) = true) {d : Nat}
    (hd : reachableAt s.cfg (past.length + 1) d) :
    reachableAt s.cfg past.length
      (select s.cfg s.pm (bmVector s.cfg s.trellis (symbolOperand r.1) (symbolOperand r.2)) d).survivor.pred := by
  by_contra hnot
  have hpred := (h.inv.survivor_leads (bmVector s.cfg s.trellis (symbolOperand r.1) (symbolOperand r.2)) hd.1).1
  have hlen : (past ++ [r]).length = past.length + 1 := by simp
  have hsentinel := h.sentinel_le hpred hnot
  have hmetric := pmRead_feedWrites r hd.1
  rw [select_metric, candidate] at hmetric
  obtain ⟨p, bits, hr⟩ := h.realizes_feedWrites r hd.1
  have hleads : encoderState s.cfg 0 bits = d := hr.leads_from_zero (hlen ▸ hd)
  have hle := h.least_feedWrites r (N_pos _) hr.length
  rw [hleads, sequenceCost_zero] at hle
  have hpath := pathMetric_le bits 0 hl
  have hfew : (past.length + 1) * s.cfg.bmMax ≤ (s.cfg.K - 1) * s.cfg.bmMax :=
    Nat.mul_le_mul_right _ (lt_of_not_reachableAt hpred hnot)
  have hS := lt_sentinel h.inv.config
  rw [hlen] at hpath
  omega

end

/-- The row that a FEED cycle records is read in the slot before its cursor (R140, R141). -/
theorem State.Inv.smRead_feedCycle_last {s : State} (h : s.Inv) {d : Nat} (r0 r1 : Nat) (hd : d < s.cfg.N) :
    smRead (feedCycle s r0 r1).sm (prevSlot s.cfg.D (feedCycle s r0 r1).wptr) d =
      some (select s.cfg s.pm (bmVector s.cfg s.trellis r0 r1) d).survivor := by
  obtain ⟨out, -, hcycle⟩ := h.feedCycle_eq r0 r1
  rw [hcycle, respond_wptr, feedWrites_wptr, prevSlot_nextCursor h.cursor]
  exact h.smRead_feedWrites_self r0 r1 hd

/-- After a run of at least one FEED, the survivor of a reachable state comes from a reachable state (R125). -/
theorem run_survivor_reachable {c : Cfg} {rs : List (Byte × Byte)} {t : State} {d : Nat} (hc : configValid c = true)
    (hl : legalPairs c rs = true) (hrun : runCommands (builtState c) (feedWords rs) = .next t)
    (hlen : 1 ≤ rs.length) (hd : reachableAt c rs.length d) :
    ∃ e, smRead t.sm (prevSlot c.D t.wptr) d = some e ∧ reachableAt c (rs.length - 1) e.pred := by
  obtain ⟨init, r, rfl⟩ : ∃ init r, rs = init ++ [r] :=
    rs.eq_nil_or_concat'.resolve_left fun hnil => by simp [hnil] at hlen
  obtain ⟨hinit, hr⟩ : legalPairs c init = true ∧ symbolsInRange c r.1 r.2 = true := by
    simpa [legalPairs] using hl
  obtain ⟨s, hbefore, rfl, hs⟩ := State.Tracks.run init (builtState_tracks hc) hinit
  rw [List.nil_append] at hs
  rw [feedWords_concat, runCommands_append hbefore, runCommands_cons (hs.inv.step_feed hr)] at hrun
  obtain rfl : feedCycle s (symbolOperand r.1) (symbolOperand r.2) = t := Host.Outcome.next.inj hrun
  simp only [List.length_append, List.length_singleton, Nat.add_sub_cancel] at hd ⊢
  exact ⟨_, hs.inv.smRead_feedCycle_last _ _ hd.1, hs.survivor_reachable hl hd⟩

/-- Settles O46: PM is the least cost over all starts, and the sentinel keeps every start but state 0 above what
reachable states cost. -/
theorem pathMetricsAreTheLeastOverAllInputSequences : Obligations.PathMetricsAreTheLeastOverAllInputSequences := by
  intro c rs hc hl
  obtain ⟨t, hrun, hcfg, ht⟩ := State.Tracks.run rs (builtState_tracks hc) hl
  obtain rfl : t.cfg = c := hcfg
  rw [List.nil_append, Nat.zero_add] at ht
  refine ⟨t, hrun, fun d hd => ⟨fun hreach => ⟨ht.attained_from_zero hl hreach, ?_, fun hlen => ?_⟩,
    ht.sentinel_le hd⟩⟩
  · rintro bits hlen rfl
    exact ht.le_pathMetric hlen
  · exact run_survivor_reachable hc hl hrun hlen hreach

end Sys2Proof.Machine
end

section
/-! Runs of any command words as runs of FEED cycles since the last reset (R19, R160). -/

namespace Sys2Proof.Machine

/-! ## What a command word does to every decoder of one resolution (R160) -/

/-- Presented to a decoder of symbol resolution `B` that meets the invariant, the word makes `f s` of it. -/
def ActsAs (B : Nat) (w : Word) (f : State → State) : Prop :=
  ∀ s : State, s.Inv → s.cfg.B = B → step (present w s) = .next (f s)

/-- The symbol check depends on the resolution alone (R101). -/
theorem symbolsInRange_congr {c c' : Cfg} (h : c'.B = c.B) (r0 r1 : Byte) :
    symbolsInRange c' r0 r1 = symbolsInRange c r0 r1 := by
  have hmax : c'.maxSym = c.maxSym := congrArg (2 ^ · - 1) h
  rw [Bool.eq_iff_iff, symbolsInRange_iff, symbolsInRange_iff, hmax]

/-- Everything a command word can do, with what it does to the cycle index (R19): only answer, reset the decoder, or
run one FEED cycle. -/
theorem word_cases (c : Cfg) (w : Word) :
    (∃ a, ActsAs c.B w (·.respond a) ∧ ∀ n ws, cyclesFrom c n (w :: ws) = cyclesFrom c n ws) ∨
    (ActsAs c.B w (fun s => (resetWrites s).respond (okResponse none)) ∧
      ∀ n ws, cyclesFrom c n (w :: ws) = cyclesFrom c 0 ws) ∨
    (∃ r : Byte × Byte, symbolsInRange c r.1 r.2 = true ∧
      ActsAs c.B w (fun s => feedCycle s (symbolOperand r.1) (symbolOperand r.2)) ∧
      ∀ n ws, cyclesFrom c n (w :: ws) = cyclesFrom c (n + 1) ws) := by
  cases hw : decode w with
  | nop =>
    refine .inl ⟨okResponse none, fun s h _ => ?_, fun n ws => by simp [cyclesFrom, hw]⟩
    rw [step_present w h.config, hw]
    rfl
  | reset =>
    refine .inr (.inl ⟨fun s h _ => ?_, fun n ws => by simp [cyclesFrom, hw]⟩)
    rw [step_present w h.config, hw]
    rfl
  | illegal v =>
    refine .inl ⟨errorResponse .illegalCommand, fun s h _ => ?_, fun n ws => by simp [cyclesFrom, hw]⟩
    rw [step_present w h.config, hw]
    exact congrArg Host.Outcome.next (raise_illegalCommand s)
  | feed r0 r1 =>
    cases hr : symbolsInRange c r0 r1 with
    | true =>
      refine .inr (.inr ⟨(r0, r1), hr, fun s h hB => ?_, fun n ws => by simp [cyclesFrom, hw, hr]⟩)
      rw [step_present w h.config, hw]
      exact execFeed_next ((symbolsInRange_congr hB r0 r1).trans hr) h.shaped
    | false =>
      refine .inl ⟨errorResponse .invalidSymbol, fun s h hB => ?_, fun n ws => by simp [cyclesFrom, hw, hr]⟩
      rw [step_present w h.config, hw]
      exact (execFeed_rejects ((symbolsInRange_congr hB r0 r1).trans hr)).trans
        (congrArg Host.Outcome.next (raise_invalidSymbol s))

/-! ## The pairs since the last reset -/

/-- A decoder of configuration `c` that has run FEED cycles of the legal pairs `past` since its last reset (R19). -/
structure FollowsPairs (c : Cfg) (past : List (Byte × Byte)) (s : State) : Prop where
  cfg : s.cfg = c
  legal : legalPairs c past = true
  tracks : ∃ off, s.Tracks past off

/-- In the reset state PM is the least cost over sequences of no inputs (R37, R125). -/
theorem State.Inv.tracks_nil {s : State} (h : s.Inv) (hpm : s.pm = resetPM s.cfg) (hp : s.pcnt = 0) :
    s.Tracks [] 0 where
  inv := h
  count := by simp [hp]
  least := fun p _ bits hlen => by
    rw [List.length_eq_zero_iff.mp hlen, hpm]
    exact le_rfl
  attained := fun d hd =>
    ⟨d, [], { start := hd, length := rfl, leads := rfl, cost := congrArg (pmRead · d) hpm
              walk := fun n hn => absurd (hp ▸ hn) n.not_lt_zero }⟩

/-- A built decoder has run no FEED. -/
theorem builtState_followsPairs {c : Cfg} (hc : configValid c = true) : FollowsPairs c [] (builtState c) :=
  ⟨rfl, rfl, 0, builtState_tracks hc⟩

section
variable {c : Cfg} {past : List (Byte × Byte)} {s : State} (h : FollowsPairs c past s)
include h

theorem FollowsPairs.inv : s.Inv := h.tracks.elim fun _ ht => ht.inv

/-- A command that only answers is no FEED (R163). -/
theorem FollowsPairs.respond (a : Response) : FollowsPairs c past (s.respond a) := by
  obtain ⟨off, ht⟩ := h.tracks
  refine ⟨h.cfg, h.legal, off, { ht with inv := ht.inv.respond_inv a, attained := fun d hd => ?_ }⟩
  obtain ⟨p, bits, hr⟩ := ht.attained d hd
  exact ⟨p, bits, { hr with }⟩

/-- RESET forgets the pairs (R164). -/
theorem FollowsPairs.afterReset : FollowsPairs c [] (resetWrites s) :=
  ⟨h.cfg, rfl, 0, h.inv.resetWrites_inv.tracks_nil rfl rfl⟩

/-- A FEED cycle adds its pair (R161). -/
theorem FollowsPairs.afterFeed {r : Byte × Byte} (hr : symbolsInRange c r.1 r.2 = true) :
    FollowsPairs c (past ++ [r]) (feedCycle s (symbolOperand r.1) (symbolOperand r.2)) := by
  obtain ⟨off, ht⟩ := h.tracks
  exact ⟨(h.inv.feedCycle_effect _ _).2.1.trans h.cfg, by simpa [legalPairs, hr] using h.legal, _, ht.afterFeed r⟩

/-- Every command word leads to a decoder that follows some pairs, as many as the cycle index says (R19). -/
theorem FollowsPairs.step_completes (w : Word) :
    ∃ t past', step (present w s) = .next t ∧ FollowsPairs c past' t ∧
      ∀ ws, cyclesFrom c past.length (w :: ws) = cyclesFrom c past'.length ws := by
  have hB : s.cfg.B = c.B := congrArg Cfg.B h.cfg
  rcases word_cases c w with ⟨a, hstep, hcycles⟩ | ⟨hstep, hcycles⟩ | ⟨r, hr, hstep, hcycles⟩
  · exact ⟨_, past, hstep s h.inv hB, h.respond a, hcycles _⟩
  · exact ⟨_, [], hstep s h.inv hB, h.afterReset.respond _, hcycles _⟩
  · exact ⟨_, past ++ [r], hstep s h.inv hB, h.afterFeed hr, by simpa using hcycles past.length⟩

end

/-- So does every run of command words. -/
theorem FollowsPairs.run {c : Cfg} : ∀ (ws : List Word) {past : List (Byte × Byte)} {s : State},
    FollowsPairs c past s →
    ∃ t past', runCommands s ws = .next t ∧ FollowsPairs c past' t ∧ past'.length = cyclesFrom c past.length ws
  | [], past, s, h => ⟨s, past, rfl, h, rfl⟩
  | w :: ws, _, _, h => by
    obtain ⟨a, mid, hstep, ha, hcycles⟩ := h.step_completes w
    obtain ⟨t, past', hrun, ht, hlen⟩ := FollowsPairs.run ws ha
    exact ⟨t, past', runCommands_cons hstep ▸ hrun, ht, hlen.trans (hcycles ws).symm⟩

end Sys2Proof.Machine
end

section
/-! The bounds of the metrics in every run (R126). -/

namespace Sys2Proof.Machine

open Sys2Proof.Claims

/-! ## Sequences in two parts -/

/-- Two sequences, one after the other. -/
theorem encoderState_append (c : Cfg) : ∀ (p : Nat) (bits bits' : List Bool),
    encoderState c p (bits ++ bits') = encoderState c (encoderState c p bits) bits'
  | _, [], _ => rfl
  | p, b :: bits, bits' => encoderState_append c (nextState c p b) bits bits'

theorem pathMetric_append (c : Cfg) (bits' : List Bool) (rs' : List (Byte × Byte)) :
    ∀ {bits : List Bool} {rs : List (Byte × Byte)} (p : Nat), bits.length = rs.length →
      pathMetric c p (bits ++ bits') (rs ++ rs') =
        pathMetric c p bits rs + pathMetric c (encoderState c p bits) bits' rs'
  | [], [], p, _ => by simp [pathMetric, encoderState]
  | b :: bits, r :: rs, p, h => by
    have ih := pathMetric_append c bits' rs' (nextState c p b) (Nat.succ.inj h)
    simp only [List.cons_append, pathMetric, encoderState, ih]
    omega

/-- Where `K - 1` inputs lead does not depend on where they start (R83). -/
theorem encoderState_merges {c : Cfg} {bits : List Bool} {p q : Nat} (hlen : bits.length = c.K - 1) (hp : p < c.N)
    (hq : q < c.N) : encoderState c p bits = encoderState c q bits :=
  have from_zero {x : Nat} (hx : x < c.N) : encoderState c 0 bits = encoderState c x bits :=
    encoderState_zero_of_reachable (reachableAt_of_le hlen.ge (encoderState_lt bits hx))
  (from_zero hp).symm.trans (from_zero hq)

/-- Any sequence is turned to where another leads by the other's last `K - 1` inputs. -/
theorem encoderState_turned {c : Cfg} {bits : List Bool} {n p : Nat} (first : List Bool)
    (hlen : bits.length = n + (c.K - 1)) (hp : p < c.N) :
    encoderState c 0 (first.take n ++ bits.drop n) = encoderState c p bits := by
  have hlast : (bits.drop n).length = c.K - 1 := by simp [hlen]
  conv_rhs => rw [← List.take_append_drop n bits, encoderState_append]
  rw [encoderState_append]
  exact encoderState_merges hlast (encoderState_lt _ (N_pos c)) (encoderState_lt _ hp)

/-- The turn adds at most what `K - 1` inputs can cost. -/
theorem pathMetric_turned_le {c : Cfg} {first : List Bool} {rs : List (Byte × Byte)} {n : Nat} (bits : List Bool)
    (hl : legalPairs c rs = true) (hlen : rs.length = n + (c.K - 1)) (hfirst : first.length = rs.length) :
    pathMetric c 0 (first.take n ++ bits.drop n) rs ≤ pathMetric c 0 first rs + (c.K - 1) * c.bmMax := by
  have hsplit (last : List Bool) := pathMetric_append c last (rs.drop n) (bits := first.take n) (rs := rs.take n) 0
    (by simp [hfirst])
  simp only [List.take_append_drop] at hsplit
  have hold := hsplit (first.drop n)
  rw [List.take_append_drop] at hold
  have hdrop : legalPairs c (rs.drop n) = true := by
    rw [← List.take_append_drop n rs, legalPairs, List.all_append, Bool.and_eq_true] at hl
    exact hl.2
  have hturn := pathMetric_le (bits.drop n) (encoderState c 0 (first.take n)) hdrop
  rw [List.length_drop, hlen, Nat.add_sub_cancel_left] at hturn
  rw [hsplit, hold]
  omega

/-! ## The bounds (R126) -/

/-- The traceback starts at a metric of 0 (R124, R141). -/
theorem State.Inv.pmRead_argminLow {s : State} (h : s.Inv) : pmRead s.pm (argminLow s.pm) = 0 := by
  simp [pmRead, (argminLow_spec h.pm_ne_nil).1, h.normalized]

/-- The candidate of the statements is a metric and a branch metric (R100, R120). -/
theorem pathCandidate_eq {s : State} {r0 r1 : Byte} (p d : Nat) (hr : symbolsInRange s.cfg r0 r1 = true) :
    pathCandidate s r0 r1 p d =
      pmRead s.pm p + branchMetric s.cfg (symbolOperand r0) (symbolOperand r1) (outLabel s.cfg p (inputBit d)) := by
  obtain ⟨h0, h1⟩ := (symbolsInRange_iff s.cfg r0 r1).mp hr
  rw [branchMetric, outLabel_eq_expectedLabel, symbolOperand, symbolOperand, symbolDistance_eq_hardDistance _ h0,
    symbolDistance_eq_hardDistance _ h1, ← Nat.add_assoc]
  rfl

section
variable {s : State} {past : List (Byte × Byte)} {off : Nat} (h : s.Tracks past off)
  (hl : legalPairs s.cfg past = true)
include h hl

/-- The offset of a run is the least cost of all sequences from state 0, attained where the traceback starts
(R123, R125). -/
theorem State.Tracks.offset_is_least :
    ∃ bits : List Bool, bits.length = past.length ∧ encoderState s.cfg 0 bits = argminLow s.pm ∧
      pathMetric s.cfg 0 bits past = off ∧
      ∀ bits' : List Bool, bits'.length = past.length → off ≤ pathMetric s.cfg 0 bits' past := by
  obtain ⟨bits, hr, hleast⟩ := h.best_sequence hl
  have hcost := hr.cost
  rw [sequenceCost_zero, h.inv.pmRead_argminLow, Nat.zero_add] at hcost
  exact ⟨bits, hr.length, hr.leads, hcost.symm, fun bits' hlen => hcost ▸ hleast bits' hlen⟩

/-- PM is at most the sentinel and what the inputs so far can cost. -/
theorem State.Tracks.metric_le {d : Nat} (hd : d < s.cfg.N) :
    pmRead s.pm d + off ≤ s.cfg.S + past.length * s.cfg.bmMax := by
  obtain ⟨p, bits, hr⟩ := h.attained d hd
  have hstart : pmRead (resetPM s.cfg) p ≤ s.cfg.S := by
    rw [resetPM_read hr.start]
    split
    · exact Nat.zero_le _
    · exact le_rfl
  rw [hr.cost, sequenceCost]
  exact Nat.add_le_add hstart (pathMetric_le bits p hl)

/-- After `K - 1` FEEDs PM is at most what `K - 1` inputs can cost: the least sequence of all can be turned to any
state (R126). -/
theorem State.Tracks.metric_le_of_merged (hlen : s.cfg.K - 1 ≤ past.length) {d : Nat} (hd : d < s.cfg.N) :
    pmRead s.pm d ≤ (s.cfg.K - 1) * s.cfg.bmMax := by
  obtain ⟨first, hfirst, -, hoff, -⟩ := h.offset_is_least hl
  obtain ⟨p, bits, hr⟩ := h.attained d hd
  have hbits := hr.length
  obtain ⟨n, hn⟩ := Nat.exists_eq_add_of_le' hlen
  have hcost := pathMetric_turned_le bits hl hn hfirst
  have hle := h.le_pathMetric (bits := first.take n ++ bits.drop n) (by simp; omega)
  rw [encoderState_turned first (hbits.trans hn) hr.start, hr.leads] at hle
  omega

/-- PM leaves room for one more branch metric below the bound (R126). -/
theorem State.Tracks.metric_add_le {d : Nat} (hd : d < s.cfg.N) :
    pmRead s.pm d + s.cfg.bmMax ≤ s.cfg.S + (s.cfg.K - 1) * s.cfg.bmMax := by
  rcases Nat.lt_or_ge past.length (s.cfg.K - 1) with hlen | hlen
  · have hle := h.metric_le hl hd
    have hroom : (past.length + 1) * s.cfg.bmMax ≤ (s.cfg.K - 1) * s.cfg.bmMax := Nat.mul_le_mul_right _ hlen
    rw [Nat.succ_mul] at hroom
    omega
  · obtain ⟨hK, -⟩ := (configValid_iff s.cfg).mp h.inv.config
    have hle := h.metric_le_of_merged hl hlen hd
    have hS := lt_sentinel h.inv.config
    have hroom : 1 * s.cfg.bmMax ≤ (s.cfg.K - 1) * s.cfg.bmMax := Nat.mul_le_mul_right _ (by omega)
    omega

/-- Every candidate of legal symbols is within the bound (R126). -/
theorem State.Tracks.pathCandidate_le {r0 r1 : Byte} (hr : symbolsInRange s.cfg r0 r1 = true) {p : Nat} (d : Nat)
    (hp : p < s.cfg.N) : pathCandidate s r0 r1 p d ≤ s.cfg.S + (s.cfg.K - 1) * s.cfg.bmMax := by
  have hstep := branchMetric_le (outLabel s.cfg p (inputBit d)) hr
  have hmetric := h.metric_add_le hl hp
  rw [pathCandidate_eq p d hr]
  omega

end

/-- Settles O47: a run of commands follows the pairs since its last reset, whose sequences bound PM. -/
theorem metricsStayWithinTheRegisterWidth : Obligations.MetricsStayWithinTheRegisterWidth := by
  intro c ws r0 r1 hc hr
  obtain ⟨s, past, hrun, ⟨rfl, hl, off, h⟩, hlen⟩ := FollowsPairs.run ws (builtState_followsPairs hc)
  obtain ⟨hK, -⟩ := (configValid_iff s.cfg).mp hc
  have hwidth := bound_lt_two_pow hc
  refine ⟨s, hrun, fun d hd => ?_, fun hle d hd => h.metric_le_of_merged hl (hlen ▸ hle) hd⟩
  have hlowPred : lowPred d < s.cfg.N := (plo_eq d).symm.trans_lt (plo_lt s.cfg d hd)
  have hhighPred : highPred s.cfg d < s.cfg.N := (phi_eq s.cfg d hK hd).symm.trans_lt (phi_lt s.cfg d hK hd)
  have hlow := h.pathCandidate_le hl hr d hlowPred
  have hhigh := h.pathCandidate_le hl hr d hhighPred
  have hmetric : pmRead s.pm d ≤ s.cfg.S + (s.cfg.K - 1) * s.cfg.bmMax :=
    (Nat.le_add_right _ _).trans (h.metric_add_le hl hd)
  exact ⟨hlow, hhigh, (min_le_left ..).trans hlow, hlow.trans_lt hwidth, hhigh.trans_lt hwidth,
    hmetric.trans_lt hwidth⟩

end Sys2Proof.Machine
end

section
/-! Two decoders of the same code that differ in their sentinels and register widths: they agree on everything that
a traceback reads, so they answer the same words (R127). -/

namespace Sys2Proof.Machine

/-! ## The same code (R8 to R11) -/

/-- The two configurations differ at most in the sentinel and the register width. -/
structure SameCode (c c' : Cfg) : Prop where
  K : c'.K = c.K
  G0 : c'.G0 = c.G0
  G1 : c'.G1 = c.G1
  B : c'.B = c.B
  D : c'.D = c.D

section
variable {c c' : Cfg} (h : SameCode c c')
include h

theorem SameCode.symm : SameCode c' c := ⟨h.K.symm, h.G0.symm, h.G1.symm, h.B.symm, h.D.symm⟩

theorem SameCode.nextState_eq (p : Nat) (b : Bool) : nextState c' p b = nextState c p b := by
  rw [nextState, nextState, Cfg.N, Cfg.N, h.K]

theorem SameCode.outLabel_eq (p : Nat) (b : Bool) : outLabel c' p b = outLabel c p b := by
  rw [outLabel, outLabel, h.K, h.G0, h.G1]

theorem SameCode.branchMetric_eq (r0 r1 : Nat) (l : Label) : branchMetric c' r0 r1 l = branchMetric c r0 r1 l := by
  simp only [branchMetric, symbolDistance, Cfg.maxSym, h.B]

theorem SameCode.phi_eq (d : Nat) : phi c' d = phi c d := by
  rw [phi, phi, h.K]

theorem SameCode.reachableAt_iff (t d : Nat) : reachableAt c' t d ↔ reachableAt c t d := by
  rw [reachableAt, reachableAt, Cfg.N, Cfg.N, h.K]

theorem SameCode.encoderState_eq : ∀ (bits : List Bool) (p : Nat), encoderState c' p bits = encoderState c p bits
  | [], _ => rfl
  | b :: bits, p => by
    rw [encoderState, encoderState, h.nextState_eq, SameCode.encoderState_eq bits]

theorem SameCode.pathMetric_eq : ∀ (bits : List Bool) (rs : List (Byte × Byte)) (p : Nat),
    pathMetric c' p bits rs = pathMetric c p bits rs
  | [], _, _ => by simp [pathMetric]
  | _ :: _, [], _ => by simp [pathMetric]
  | b :: bits, r :: rs, p => by
    rw [pathMetric, pathMetric, h.nextState_eq, h.outLabel_eq, h.branchMetric_eq, SameCode.pathMetric_eq bits]

end

/-- Every state below a reachable one is reachable. -/
theorem reachableAt.of_le {c : Cfg} {t d e : Nat} (h : reachableAt c t d) (he : e ≤ d) : reachableAt c t e :=
  ⟨he.trans_lt h.1, fun ht => he.trans_lt (h.2 ht)⟩

/-! ## What a traceback reads lies at reachable states (R127) -/

section
variable {c : Cfg} {past : List (Byte × Byte)} {s : State} (h : FollowsPairs c past s)
include h

/-- The traceback starts at a reachable state: the least metric is attained from state 0. -/
theorem FollowsPairs.argminLow_reachable : reachableAt c past.length (argminLow s.pm) := by
  obtain ⟨rfl, hl, off, hs⟩ := h
  obtain ⟨bits, hlen, hleads, -⟩ := hs.offset_is_least hl
  exact hleads ▸ hlen ▸ reachableAt_encoderState s.cfg bits

/-- The survivor that a FEED records for a reachable state leads back to a reachable one. -/
theorem FollowsPairs.survivor_reachable {r : Byte × Byte} (hr : symbolsInRange c r.1 r.2 = true) {d : Nat}
    (hd : reachableAt c (past.length + 1) d) :
    reachableAt c past.length
      (select s.cfg s.pm (bmVector s.cfg s.trellis (symbolOperand r.1) (symbolOperand r.2)) d).survivor.pred := by
  obtain ⟨rfl, hl, off, hs⟩ := h
  exact hs.survivor_reachable (by simpa [legalPairs, hr] using hl) hd

end

/-- A state of metric 0 does not come before the start of the traceback (R16, R124). -/
theorem State.Inv.argminLow_le_of_zero {s : State} (h : s.Inv) {d : Nat} (hd : d < s.cfg.N)
    (hzero : pmRead s.pm d = 0) : argminLow s.pm ≤ d := by
  have hlt : d < s.pm.length := h.metrics ▸ hd
  refine argminLow_le ?_
  rw [h.normalized, List.getElem?_eq_getElem hlt, ← hzero]
  simp [pmRead, hlt]

/-! ## Decoders that have run the same FEEDs -/

/-- Two decoders of the same code that have run FEED cycles of the same pairs since their last resets. -/
structure SamePairs (c c' : Cfg) (past : List (Byte × Byte)) (s u : State) : Prop where
  code : SameCode c c'
  left : FollowsPairs c past s
  right : FollowsPairs c' past u

section
variable {c c' : Cfg} {past : List (Byte × Byte)} {s u : State} (h : SamePairs c c' past s u)
include h

theorem SamePairs.symm : SamePairs c' c past u s := ⟨h.code.symm, h.right, h.left⟩

/-- PM agrees on reachable states, in one direction: what attains it in one decoder bounds it in the other, and both
have the least cost of all as their offset (R125). -/
theorem SamePairs.metric_le {d : Nat} (hd : reachableAt c past.length d) : pmRead s.pm d ≤ pmRead u.pm d := by
  obtain ⟨code, ⟨rfl, hl, off, hs⟩, ⟨rfl, hl', off', hu⟩⟩ := h
  obtain ⟨first, hfirst, -, hoff, -⟩ := hs.offset_is_least hl
  obtain ⟨-, -, -, -, hleast⟩ := hu.offset_is_least hl'
  obtain ⟨bits, hlen, hleads, hcost⟩ := hu.attained_from_zero hl' ((code.reachableAt_iff _ d).mpr hd)
  have hle := hs.le_pathMetric hlen
  rw [code.pathMetric_eq] at hcost
  rw [← code.encoderState_eq, hleads] at hle
  have hoff' := hleast first hfirst
  rw [code.pathMetric_eq] at hoff'
  omega

theorem SamePairs.metric_eq {d : Nat} (hd : reachableAt c past.length d) : pmRead u.pm d = pmRead s.pm d :=
  le_antisymm (h.symm.metric_le ((h.code.reachableAt_iff _ d).mpr hd)) (h.metric_le hd)

/-- A candidate through a reachable predecessor is the same in both. -/
theorem SamePairs.candidate_eq (r0 r1 : Nat) {p : Nat} (d : Nat) (hp : reachableAt c past.length p) :
    candidate u.pm (bmVector u.cfg u.trellis r0 r1) p d = candidate s.pm (bmVector s.cfg s.trellis r0 r1) p d := by
  have hmetric := h.metric_eq hp
  obtain ⟨code, hs, hu⟩ := h
  have hp' := (code.reachableAt_iff _ p).mpr hp
  obtain rfl := hs.cfg
  obtain rfl := hu.cfg
  rw [hu.inv.candidate_eq _ _ _ hp'.1, hs.inv.candidate_eq _ _ _ hp.1, hmetric, code.outLabel_eq,
    code.branchMetric_eq]

/-- So the survivor of a state that is reachable after the FEED is the same: where both predecessors are reachable
the selections compare the same candidates, and where the upper one is not both select the lower (R127). -/
theorem SamePairs.survivor_eq {r : Byte × Byte} (hr : symbolsInRange c r.1 r.2 = true) {d : Nat}
    (hd : reachableAt c (past.length + 1) d) :
    (select u.cfg u.pm (bmVector u.cfg u.trellis (symbolOperand r.1) (symbolOperand r.2)) d).survivor =
      (select s.cfg s.pm (bmVector s.cfg s.trellis (symbolOperand r.1) (symbolOperand r.2)) d).survivor := by
  have hr' : symbolsInRange c' r.1 r.2 = true := (symbolsInRange_congr h.code.B ..).trans hr
  have hs := h.left.survivor_reachable hr hd
  have hu := (h.code.reachableAt_iff ..).mp
    (h.right.survivor_reachable hr' ((h.code.reachableAt_iff ..).mpr hd))
  have hcandidate {p : Nat} := h.candidate_eq (symbolOperand r.1) (symbolOperand r.2) (p := p) d
  obtain ⟨code, ⟨rfl, -, -⟩, ⟨rfl, -, -⟩⟩ := h
  by_cases hphi : reachableAt s.cfg past.length (phi s.cfg d)
  · have hplo : reachableAt s.cfg past.length (plo d) := hphi.of_le Nat.left_le_or
    rw [select, select, code.phi_eq, hcandidate hplo, hcandidate hphi]
  · obtain ⟨hbit, hpred⟩ := select_survivor s.cfg s.pm
      (bmVector s.cfg s.trellis (symbolOperand r.1) (symbolOperand r.2)) d
    obtain ⟨hbit', hpred'⟩ := select_survivor u.cfg u.pm
      (bmVector u.cfg u.trellis (symbolOperand r.1) (symbolOperand r.2)) d
    have hlow := hpred.resolve_right fun heq => hphi (heq ▸ hs)
    have hlow' := hpred'.resolve_right fun heq => hphi (code.phi_eq d ▸ heq ▸ hu)
    exact congrArg₂ Survivor.mk (hlow'.trans hlow.symm) (hbit'.trans hbit.symm)

/-- The traceback starts at the same state in both, for it starts at a reachable one (R127). -/
theorem SamePairs.argminLow_le : argminLow s.pm ≤ argminLow u.pm := by
  have hreach := (h.code.reachableAt_iff ..).mp h.right.argminLow_reachable
  have hzero := h.metric_eq hreach
  rw [h.right.inv.pmRead_argminLow] at hzero
  exact h.left.inv.argminLow_le_of_zero (h.left.cfg ▸ hreach.1) hzero.symm

theorem SamePairs.argminLow_eq : argminLow u.pm = argminLow s.pm :=
  le_antisymm h.symm.argminLow_le h.argminLow_le

/-- Both are primed after the same number of FEEDs (R28). -/
theorem SamePairs.pcnt_eq : u.pcnt = s.pcnt := by
  obtain ⟨code, ⟨rfl, -, off, hs⟩, ⟨rfl, -, off', hu⟩⟩ := h
  rw [hu.count, hs.count, code.D]

end

/-! ## Decoders that answer the same -/

/-- Two such decoders that have answered the same words, and whose walks from reachable states read the same. -/
structure Twins (c c' : Cfg) (past : List (Byte × Byte)) (s u : State) : Prop
    extends SamePairs c c' past s u where
  cursor : u.wptr = s.wptr
  output : u.output = s.output
  walk : ∀ n < s.pcnt, ∀ d, reachableAt c past.length d →
    walkBack c'.D u.sm n u.wptr d = walkBack c.D s.sm n s.wptr d

/-- Two decoders of the same code are built as twins (R37). -/
theorem builtState_twins {c c' : Cfg} (hcode : SameCode c c') (hc : configValid c = true)
    (hc' : configValid c' = true) : Twins c c' [] (builtState c) (builtState c') where
  code := hcode
  left := builtState_followsPairs hc
  right := builtState_followsPairs hc'
  cursor := rfl
  output := rfl
  walk := fun n hn => absurd hn n.not_lt_zero

section
variable {c c' : Cfg} {past : List (Byte × Byte)} {s u : State} (h : Twins c c' past s u)
include h

/-- The same answer keeps them twins. -/
theorem Twins.respond (a : Response) : Twins c c' past (s.respond a) (u.respond a) :=
  { h with
    left := h.left.respond a
    right := h.right.respond a
    output := congrArg (· ++ [responseWord a]) h.output }

/-- So does RESET (R164). -/
theorem Twins.afterReset : Twins c c' [] (resetWrites s) (resetWrites u) where
  code := h.code
  left := h.left.afterReset
  right := h.right.afterReset
  cursor := rfl
  output := h.output
  walk := fun n hn => absurd hn n.not_lt_zero

/-- FEED's result is the same in both (R127, R143). -/
theorem Twins.feedOutput_eq : feedOutput u = feedOutput s := by
  have hcount := h.pcnt_eq
  have hstart := h.argminLow_eq
  have hreach := h.left.argminLow_reachable
  have hD := h.left.inv.cursor
  obtain ⟨⟨code, ⟨rfl, -, -⟩, ⟨rfl, -, -⟩⟩, -, -, hwalk⟩ := h
  rw [feedOutput, feedOutput, hcount, code.D]
  by_cases hp : s.pcnt = s.cfg.D
  · have htrace : traceback u = traceback s := by
      have hlast : s.cfg.D - 1 < s.pcnt := by omega
      rw [traceback, traceback, hstart, ← hwalk _ hlast _ hreach, code.D]
    rw [htrace]
  · rw [if_neg hp, if_neg hp]

/-- The walks after a FEED read the same survivor first, and go on from its reachable predecessor as before. -/
theorem Twins.walk_feedWrites {r : Byte × Byte} (hr : symbolsInRange c r.1 r.2 = true) {n d : Nat}
    (hn : n < nextCount c.D s.pcnt) (hd : reachableAt c (past.length + 1) d) :
    walkBack c'.D (feedWrites u (symbolOperand r.1) (symbolOperand r.2)).sm n (nextCursor c'.D u.wptr) d =
      walkBack c.D (feedWrites s (symbolOperand r.1) (symbolOperand r.2)).sm n (nextCursor c.D s.wptr) d := by
  have hsurvivor := h.survivor_eq hr hd
  have hreach := h.left.survivor_reachable hr hd
  have hs := h.left.inv
  have hu := h.right.inv
  have hd' := (h.code.reachableAt_iff _ d).mpr hd
  obtain ⟨⟨code, ⟨rfl, -, -⟩, ⟨rfl, -, -⟩⟩, -, -, hwalk⟩ := h
  rw [nextCount] at hn
  cases n with
  | zero => rw [hs.walkBack_zero_feedWrites _ _ hd.1, hu.walkBack_zero_feedWrites _ _ hd'.1]
  | succ n =>
    have hD := code.D
    rw [hs.walkBack_succ_feedWrites _ _ hd.1 (by omega), hu.walkBack_succ_feedWrites _ _ hd'.1 (by omega), hsurvivor]
    exact hwalk n (by omega) _ hreach

/-- A FEED cycle of the same legal pair keeps them twins (R127, R161). -/
theorem Twins.afterFeed {r : Byte × Byte} (hr : symbolsInRange c r.1 r.2 = true) :
    Twins c c' (past ++ [r]) (feedCycle s (symbolOperand r.1) (symbolOperand r.2))
      (feedCycle u (symbolOperand r.1) (symbolOperand r.2)) := by
  have hleft := h.left.afterFeed hr
  have hright := h.right.afterFeed ((symbolsInRange_congr h.code.B ..).trans hr)
  have hresult := h.feedOutput_eq
  obtain ⟨out, hout, hs⟩ := h.left.inv.feedCycle_eq (symbolOperand r.1) (symbolOperand r.2)
  obtain ⟨out', hout', hu⟩ := h.right.inv.feedCycle_eq (symbolOperand r.1) (symbolOperand r.2)
  obtain rfl : out = out' := Option.some.inj (hout.symm.trans (hresult.symm.trans hout'))
  rw [hs] at hleft ⊢
  rw [hu] at hright ⊢
  refine ⟨⟨h.code, hleft, hright⟩, ?_, congrArg (· ++ [_]) h.output, fun n hn d hd => ?_⟩
  · simp only [respond_wptr, feedWrites_wptr, h.cursor, h.left.cfg, h.right.cfg, h.code.D]
  · simp only [respond_pcnt, feedWrites_pcnt, h.left.cfg] at hn
    rw [List.length_append] at hd
    have hwalk := h.walk_feedWrites hr hn hd
    simpa only [respond_sm, respond_wptr, feedWrites_wptr, h.left.cfg, h.right.cfg] using hwalk

/-- Every command word keeps them twins. -/
theorem Twins.step_completes (w : Word) :
    ∃ s' u' past', step (present w s) = .next s' ∧ step (present w u) = .next u' ∧ Twins c c' past' s' u' := by
  have hB : s.cfg.B = c.B := congrArg Cfg.B h.left.cfg
  have hB' : u.cfg.B = c.B := (congrArg Cfg.B h.right.cfg).trans h.code.B
  rcases word_cases c w with ⟨a, hstep, -⟩ | ⟨hstep, -⟩ | ⟨r, hr, hstep, -⟩
  · exact ⟨_, _, past, hstep s h.left.inv hB, hstep u h.right.inv hB', h.respond a⟩
  · exact ⟨_, _, [], hstep s h.left.inv hB, hstep u h.right.inv hB', h.afterReset.respond _⟩
  · exact ⟨_, _, _, hstep s h.left.inv hB, hstep u h.right.inv hB', h.afterFeed hr⟩

end

/-- Twins answer every run of command words the same. -/
theorem Twins.run {c c' : Cfg} : ∀ (ws : List Word) {past : List (Byte × Byte)} {s u : State},
    Twins c c' past s u →
    ∃ t v, runCommands s ws = .next t ∧ runCommands u ws = .next v ∧ t.output = v.output
  | [], _, s, u, h => ⟨s, u, rfl, rfl, h.output.symm⟩
  | w :: ws, _, _, _, h => by
    obtain ⟨s', u', past', hs, hu, hnext⟩ := h.step_completes w
    rw [runCommands_cons hs, runCommands_cons hu]
    exact Twins.run ws hnext

/-- Settles O48: two instances that differ in the sentinel and the width are built as twins. -/
theorem responsesDoNotDependOnTheSentinel : Obligations.ResponsesDoNotDependOnTheSentinel :=
  fun _ _ _ ws hc hc' => Twins.run ws (builtState_twins ⟨rfl, rfl, rfl, rfl, rfl⟩ hc hc')

end Sys2Proof.Machine
end

section
/-! A traceback that reads bottom: the walk ends there, and FEED sets MODEL_FAULT alone (R141, R217). -/

namespace Sys2Proof.Machine

/-! ## What a FEED cycle makes of its traceback (R161) -/

theorem feedCycle_of_feedOutput_none {s : State} (h : feedOutput s = none) (r0 r1 : Nat) :
    feedCycle s r0 r1 = s.raise .modelFault := by
  simp [feedCycle, h]

theorem feedCycle_of_feedOutput_some {s : State} {out : Option Bool} (h : feedOutput s = some out) (r0 r1 : Nat) :
    feedCycle s r0 r1 = (feedWrites s r0 r1).respond (okResponse out) := by
  simp [feedCycle, h]

/-- MODEL_FAULT sets its mark and answers its code, and nothing else (R201, R217). -/
theorem raise_modelFault_eq (s : State) :
    s.raise .modelFault =
      { s with
        modelFault := true
        output := s.output ++ [responseWord (errorResponse (Config.modelFaultCode s.output.length))] } := by
  simp [State.raise, State.respond, raisedCode]

/-! ## The start and the slots of the traceback (R141) -/

/-- The lowest state of least metric is where the traceback starts (R16, R141). -/
theorem eq_argminLow_of_lowestMinimum {s : State} {d : Nat} (h : Claims.LowestMinimum s d) : d = argminLow s.pm := by
  obtain ⟨hd, hleast, hlowest⟩ := h
  have hne : s.pm ≠ [] := List.ne_nil_of_length_pos (by omega)
  have hstart : s.pm.getD (argminLow s.pm) 0 = minMetric s.pm := by
    simp [(argminLow_spec hne).1]
  refine le_antisymm (not_lt.mp fun hlt => ?_) (argminLow_le ?_)
  · have hbelow := hlowest _ hlt
    have hmin := minMetric_le (List.getElem_mem hd)
    rw [hstart, List.getD_eq_getElem _ _ hd] at hbelow
    omega
  · have hle := hleast _ (argminLow_lt_length hne)
    rw [hstart, List.getD_eq_getElem _ _ hd] at hle
    rw [List.getElem?_eq_getElem hd, le_antisymm hle (minMetric_le (List.getElem_mem hd))]

/-- Step number `i` of the walk from the cursor reads the slot that R141 names. -/
theorem prevSlot_eq_tracedSlot {s : State} {i : Nat} (hw : s.wptr < s.cfg.D) (hi : i < s.cfg.D) :
    prevSlot s.cfg.D ((s.wptr + s.cfg.D - i) % s.cfg.D) = Claims.tracedSlot s i := by
  rw [prevSlot_back hw hi, Claims.tracedSlot, Nat.sub_sub, Nat.add_comm 1 i]

/-! ## A walk that meets bottom -/

/-- A walk ends at the bottom entry it reads, however many steps are left (R141). -/
theorem walkBack_of_bottom {depth : Nat} {sm : Memory} {j d : Nat} (n : Nat)
    (h : smRead sm (prevSlot depth j) d = none) : walkBack depth sm n j d = none := by
  cases n <;> simp [walkBack, h]

/-- A walk goes on from the predecessor it reads (R141, R147). -/
theorem walkBack_of_entry {depth : Nat} {sm : Memory} {j d : Nat} {e : Survivor} (n : Nat)
    (h : smRead sm (prevSlot depth j) d = some e) :
    walkBack depth sm (n + 1) j d = walkBack depth sm n (prevSlot depth j) e.pred := by
  simp [walkBack, h]

/-- A walk with enough steps left to follow `path` from its step `i` to the bottom entry at its step `n` returns no
bit. -/
theorem walkBack_into_bottom {s : State} {path : Nat → Nat} {n : Nat} (hw : s.wptr < s.cfg.D) (hn : n < s.cfg.D)
    (hpath : ∀ k < n, ∃ e, smRead s.sm (Claims.tracedSlot s k) (path k) = some e ∧ path (k + 1) = e.pred)
    (hbottom : smRead s.sm (Claims.tracedSlot s n) (path n) = none) (m : Nat) :
    ∀ {i : Nat}, i ≤ n → n ≤ i + m →
      walkBack s.cfg.D s.sm m ((s.wptr + s.cfg.D - i) % s.cfg.D) (path i) = none := by
  induction m with
  | zero =>
    intro i hi hm
    obtain rfl : i = n := le_antisymm hi hm
    exact walkBack_of_bottom _ (prevSlot_eq_tracedSlot hw hn ▸ hbottom)
  | succ m ih =>
    intro i hi hm
    rcases hi.eq_or_lt with rfl | hlt
    · exact walkBack_of_bottom _ (prevSlot_eq_tracedSlot hw hn ▸ hbottom)
    · obtain ⟨e, he, hnext⟩ := hpath i hlt
      rw [← prevSlot_eq_tracedSlot hw (hlt.trans hn)] at he
      rw [walkBack_of_entry m he, prevSlot_back hw (hlt.trans hn), ← hnext]
      exact ih hlt (by omega)

/-- The traceback that reads a bottom entry returns no bit (R141). -/
theorem traceback_eq_none {s : State} (hw : s.wptr < s.cfg.D) (h : Claims.TracesIntoBottom s) :
    traceback s = none := by
  obtain ⟨path, n, hn, hstart, hpath, hbottom⟩ := h
  have hwalk := walkBack_into_bottom hw hn hpath hbottom (s.cfg.D - 1) (Nat.zero_le n) (by omega)
  rwa [Nat.sub_zero, Nat.add_mod_right, Nat.mod_eq_of_lt hw, eq_argminLow_of_lowestMinimum hstart] at hwalk

/-- Settles O31: the traceback returns no bit, so the FEED cycle raises MODEL_FAULT. -/
theorem feedIntoBottomSetsModelFaultAlone : Obligations.FeedIntoBottomSetsModelFaultAlone := by
  intro s r0 r1 hs hp h0 h1 hbottom
  obtain ⟨-, -, -, -, hw⟩ := (shaped_iff s).mp hs
  have hout : feedOutput s = none := by simp [feedOutput, hp, traceback_eq_none hw hbottom]
  have hfeed := execFeed_next (symbolsInRange_of_lt_two_pow h0 h1) hs
  rw [feedCycle_of_feedOutput_none hout, raise_modelFault_eq] at hfeed
  obtain ⟨hvalid, hbit, -⟩ := responseWord_fields (errorResponse (Config.modelFaultCode s.output.length))
  exact ⟨_, hfeed, hvalid, hbit⟩

end Sys2Proof.Machine
end

section
/-! The priming gate in a run of any commands (R143, R163). -/

namespace Sys2Proof.Machine

/-- A FEED cycle answers the word of its result (R162). -/
theorem feedCycle_output {s : State} {out : Option Bool} (h : feedOutput s = some out) (r0 r1 : Nat) :
    (feedCycle s r0 r1).output = s.output ++ [Claims.resultWord out] := by
  rw [feedCycle_of_feedOutput_some h, respond_output, feedWrites_output, responseWord_okResponse]

/-- Settles O41: the priming count is the cycle index up to D, and it alone gates the traceback. -/
theorem outputBeginsAtFeedDPlusOne : Obligations.OutputBeginsAtFeedDPlusOne := by
  intro c ws r0 r1 hc hr
  obtain ⟨s, hrun, hs⟩ := FollowsCycle.run ws (builtState_followsCycle hc)
  obtain ⟨hinv, rfl, -, hcount⟩ := hs
  refine ⟨s, _, hrun, hinv.step_feed hr, fun hlt => ?_, fun hle => ?_⟩
  · have hpriming : s.pcnt < s.cfg.D := by omega
    exact feedCycle_output (feedOutput_priming hpriming) _ _
  · have hprimed : s.pcnt = s.cfg.D := by omega
    obtain ⟨b, -, hout⟩ := hinv.feedOutput_primed hprimed
    exact ⟨b, feedCycle_output hout _ _⟩

end Sys2Proof.Machine
end

section
/-! How a presented word runs, and what RESET, NOP and ILLEGAL do in every state (R160, R164 to R166). -/

namespace Sys2Proof.Machine

/-! ## The step (R160) -/

/-- A state with a word first in its stream is one that the word is presented to. -/
theorem eq_present_of_input {s : State} {w : Word} {rest : List Word} (h : s.input = w :: rest) :
    s = present w { s with input := rest } := by
  rw [present, ← h]

/-- The word of a table row decodes to the row's command (R45, R68). -/
theorem decode_tableWord {nbits w : Nat} {i : Instr} (h : decodeTableWord nbits w = some i) :
    decode (tableWord nbits w) = i := by
  have hbytes := decodeBytes_bytesOfWord (tableWord nbits w) []
  rw [List.append_nil, tableWord] at hbytes
  unfold decodeTableWord at h
  split at h
  next => simpa [hbytes, tableWord] using h
  next => cases h

/-- Settles O9: all three are steps of a presented word. -/
theorem stepPerformsThePresentedCommand : Obligations.StepPerformsThePresentedCommand := by
  refine ⟨fun s w rest hv hin => ?_, fun s i hv hi => ?_, fun s nbits w i hv hd => ?_⟩
  · have hstep := step_present (s := { s with input := rest }) w hv
    rwa [← eq_present_of_input hin] at hstep
  · rw [step_present _ hv, decodeOfEncodeIsTheCommand i hi]
  · rw [State.withFetchWord, step_present _ hv, decode_tableWord hd]

/-! ## RESET, NOP and ILLEGAL -/

/-- Settles O33: the writes of RESET and its answer, field by field. -/
theorem resetRestoresTheResetState : Obligations.ResetRestoresTheResetState := fun s =>
  ⟨(resetWrites s).respond (okResponse none), rfl, resetPM_length s.cfg, rfl, fun _ => resetPM_at_sentinel,
    smWf_reset s.cfg, smRead_reset s.cfg, rfl, rfl, rfl, rfl, rfl, rfl, by simp⟩

/-- Settles O34: NOP only answers no output. -/
theorem nopChangesNoState : Obligations.NopChangesNoState := by
  intro s
  change Host.Outcome.next (s.respond (okResponse none)) = _
  rw [State.respond, responseWord_none]

/-- Settles O35: raising ILLEGAL_COMMAND only answers its code. -/
theorem illegalChangesNoState : Obligations.IllegalChangesNoState := by
  intro s w
  change Host.Outcome.next (s.raise .illegalCommand) = _
  rw [raise_illegalCommand, State.respond, responseWord_illegalCommand]

end Sys2Proof.Machine
end

section
/-! What a FEED answers and writes, in the words of the statements (R161). -/

namespace Sys2Proof.Machine

open Sys2Proof.Claims

/-! ## The effect of a decode cycle (R120, R123, R140) -/

section
variable {s : State} {r0 r1 : Byte} (h : s.Inv) (hr : symbolsInRange s.cfg r0 r1 = true)
include h hr

/-- The candidate of ACS_STEP is that of the statements (R100, R120). -/
theorem State.Inv.candidate_eq_pathCandidate {p : Nat} (d : Nat) (hp : p < s.cfg.N) :
    candidate s.pm (bmVector s.cfg s.trellis (symbolOperand r0) (symbolOperand r1)) p d =
      pathCandidate s r0 r1 p d := by
  rw [h.candidate_eq _ _ d hp, pathCandidate_eq p d hr]

/-- ACS_STEP selects the metric and the survivor of the statements (R120, R121). -/
theorem State.Inv.select_eq_selected {d : Nat} (hd : d < s.cfg.N) :
    select s.cfg s.pm (bmVector s.cfg s.trellis (symbolOperand r0) (symbolOperand r1)) d =
      ⟨selectedMetric s r0 r1 d, selectedSurvivor s r0 r1 d⟩ := by
  have hK := ((configValid_iff s.cfg).mp h.config).1
  have hlow := h.candidate_eq_pathCandidate hr d (plo_lt s.cfg d hd)
  have hhigh := h.candidate_eq_pathCandidate hr d (phi_lt s.cfg d hK hd)
  have hsel := select_cases s.cfg s.pm (bmVector s.cfg s.trellis (symbolOperand r0) (symbolOperand r1)) d
  rw [hlow, hhigh, plo_eq, phi_eq s.cfg d hK hd] at hsel
  rw [selectedMetric, selectedSurvivor, lowPred, highPred]
  rcases hsel with ⟨hle, hsel⟩ | ⟨hlt, hsel⟩
  · rw [hsel, min_eq_left hle, if_pos hle]
    rfl
  · rw [hsel, min_eq_right hlt.le, if_neg hlt.not_ge]
    rfl

/-- NEWPM[d] of a FEED is the selected metric of the statements (R120). -/
theorem State.Inv.newMetrics_at {d : Nat} (hd : d < s.cfg.N) :
    (newMetrics (feedSelections s (symbolOperand r0) (symbolOperand r1)))[d]? = some (selectedMetric s r0 r1 d) := by
  rw [newMetrics_feedSelections_at _ _ hd, h.select_eq_selected hr hd]

/-- What a FEED with legal symbols writes is the effect of one decode cycle (R161). -/
theorem State.Inv.feedWrites_effect :
    FeedEffect s r0 r1 (feedWrites s (symbolOperand r0) (symbolOperand r1)) := by
  have hnew {d : Nat} (hd : d < s.cfg.N) := h.newMetrics_at hr hd
  have hlen : (newMetrics (feedSelections s (symbolOperand r0) (symbolOperand r1))).length = s.cfg.N := by simp
  have hmem := minMetric_mem (List.ne_nil_of_length_pos (hlen ▸ N_pos s.cfg))
  obtain ⟨d, hd, hmin⟩ := List.getElem_of_mem hmem
  rw [hlen] at hd
  exact
    { metrics := by
        refine ⟨by simp, _, ⟨d, hd, ?_⟩, fun e he => minMetric_le (List.mem_of_getElem? (hnew he)),
          fun e he => ?_⟩
        · rw [← hmin, ← Option.some_inj, ← hnew hd, List.getElem?_eq_getElem]
        · rw [feedWrites_pm, normalize, List.getElem?_map, hnew he, Option.map_some]
      recorded := fun e he => by rw [h.smRead_feedWrites_self _ _ he, h.select_eq_selected hr he]
      otherSlots := fun j e hj => smRead_record_other _ _ _ _ _ hj
      shape := smRecord_length _ _ _
      cursor := rfl
      count := rfl
      cfg := rfl
      trellis := rfl
      modelFault := rfl
      input := rfl }

/-- A FEED with legal symbols completes with the effect of one decode cycle, and answers its result (R161, R162). -/
theorem State.Inv.exec_feed {out : Option Bool} (hout : feedOutput s = some out) :
    ∃ t, exec (.feed r0 r1) s = .next t ∧ FeedEffect s r0 r1 t ∧ t.output = s.output ++ [resultWord out] := by
  have hcycle := feedCycle_of_feedOutput_some hout (symbolOperand r0) (symbolOperand r1)
  refine ⟨_, execFeed_next hr h.shaped, ?_, feedCycle_output hout _ _⟩
  rw [hcycle]
  exact { h.feedWrites_effect hr with }

end

/-- Settles O27: while priming the result of FEED is no output. -/
theorem feedWhilePrimingAnswersNoOutput : Obligations.FeedWhilePrimingAnswersNoOutput :=
  fun _ _ _ h hp h0 h1 => h.exec_feed (symbolsInRange_of_lt_two_pow h0 h1) (feedOutput_priming hp)

/-! ## The path of the traceback (R141) -/

/-- The states at which the traceback reads: the lowest state of least metric, then each predecessor read. -/
def tracePath (s : State) : Nat → Nat
  | 0 => argminLow s.pm
  | k + 1 =>
    match smRead s.sm (tracedSlot s k) (tracePath s k) with
    | none => 0
    | some e => e.pred

theorem tracePath_succ {s : State} {k : Nat} {e : Survivor}
    (he : smRead s.sm (tracedSlot s k) (tracePath s k) = some e) : tracePath s (k + 1) = e.pred := by
  simp [tracePath, he]

/-- The traceback starts at the lowest state of least metric (R16, R141). -/
theorem lowestMinimum_argminLow {s : State} (hne : s.pm ≠ []) : LowestMinimum s (argminLow s.pm) := by
  obtain ⟨hstart, hfirst⟩ := argminLow_spec hne
  have hread : s.pm.getD (argminLow s.pm) 0 = minMetric s.pm := by simp [hstart]
  refine ⟨argminLow_lt_length hne, fun i hi => ?_, fun i hi => ?_⟩ <;> rw [hread]
  · rw [List.getD_eq_getElem _ _ hi]
    exact minMetric_le (List.getElem_mem hi)
  · have hlt := hi.trans (argminLow_lt_length hne)
    have hne' := hfirst i hi
    rw [List.getElem?_eq_getElem hlt, ne_eq, Option.some_inj] at hne'
    rw [List.getD_eq_getElem _ _ hlt]
    exact (minMetric_le (List.getElem_mem hlt)).lt_of_ne (Ne.symm hne')

section
variable {s : State} (h : s.Inv) (hp : s.pcnt = s.cfg.D)
include h hp

/-- Every entry that the traceback of a primed decoder reads is written, and leads to a state (R29, R145, R148). -/
theorem State.Inv.traced_entry {k : Nat} (hk : tracePath s k < s.cfg.N) :
    ∃ e, smRead s.sm (tracedSlot s k) (tracePath s k) = some e ∧ e.pred < s.cfg.N :=
  h.entry hp (Nat.mod_lt _ h.cursor.pos) hk

theorem State.Inv.tracePath_lt : ∀ k, tracePath s k < s.cfg.N
  | 0 => h.argminLow_lt
  | k + 1 => by
    obtain ⟨e, he, hlt⟩ := h.traced_entry hp (State.Inv.tracePath_lt k)
    rwa [tracePath_succ he]

/-- The traceback is the walk that is left after following the path for `k` steps (R141). -/
theorem State.Inv.traceback_eq_walkBack : ∀ k < s.cfg.D, traceback s =
    walkBack s.cfg.D s.sm (s.cfg.D - 1 - k) ((s.wptr + s.cfg.D - k) % s.cfg.D) (tracePath s k)
  | 0, _ => by rw [Nat.sub_zero, Nat.sub_zero, Nat.add_mod_right, Nat.mod_eq_of_lt h.cursor]; rfl
  | k + 1, hk => by
    obtain ⟨e, he, -⟩ := h.traced_entry hp (h.tracePath_lt hp k)
    have hslot := prevSlot_eq_tracedSlot h.cursor (Nat.lt_of_succ_lt hk)
    rw [State.Inv.traceback_eq_walkBack k (Nat.lt_of_succ_lt hk), tracePath_succ he,
      show s.cfg.D - 1 - k = s.cfg.D - 1 - (k + 1) + 1 by omega, walkBack_of_entry _ (hslot ▸ he),
      prevSlot_back h.cursor (Nat.lt_of_succ_lt hk)]

/-- The path is the one of R141, and the bit of the traceback is that of the last entry read. -/
theorem State.Inv.tracesTo_tracePath {b : Bool} (hb : traceback s = some b) : TracesTo s (tracePath s) b := by
  refine ⟨lowestMinimum_argminLow h.pm_ne_nil, fun k hk => ?_⟩
  obtain ⟨e, he, -⟩ := h.traced_entry hp (h.tracePath_lt hp k)
  refine ⟨e, he, tracePath_succ he, fun hlast => ?_⟩
  have hwalk := h.traceback_eq_walkBack hp k hk
  rw [hb, show s.cfg.D - 1 - k = 0 by omega, walkBack, prevSlot_eq_tracedSlot h.cursor hk, he] at hwalk
  exact Option.some.inj hwalk

end

/-- Settles O28: the result of a primed FEED is the bit of its traceback, which follows `tracePath`. -/
theorem feedWhenPrimedAnswersTheTracedBit : Obligations.FeedWhenPrimedAnswersTheTracedBit := by
  intro s r0 r1 h hp h0 h1
  obtain ⟨b, htrace, hout⟩ := h.feedOutput_primed hp
  obtain ⟨t, hexec, heffect, hanswer⟩ := h.exec_feed (symbolsInRange_of_lt_two_pow h0 h1) hout
  exact ⟨t, tracePath s, b, hexec, heffect, h.tracesTo_tracePath hp htrace, hanswer⟩

end Sys2Proof.Machine
end

section
/-! The answers of a decoder depend on neither the words it still has to take nor the answers it has given, so a
command that writes nothing, and everything before a RESET, is forgotten (R160, R163, R168). -/

namespace Sys2Proof.Machine

/-- A decoder with another host stream and other answers given. -/
def State.withHost (s : State) (ins outs : List Word) : State := { s with input := ins, output := outs }

theorem State.Inv.withHost_inv {s : State} (h : s.Inv) (ins outs : List Word) : (s.withHost ins outs).Inv := { h with }

/-- Every command completes with one response, and does and answers the same whatever the host's stream and the
answers before it (R160, R231). -/
theorem State.Inv.step_completes {s : State} (h : s.Inv) (w : Word) :
    ∃ t r, step (present w s) = .next t ∧ t.Inv ∧ t.input = s.input ∧ t.output = s.output ++ [r] ∧
      ∀ ins outs, step (present w (s.withHost ins outs)) = .next (t.withHost ins (outs ++ [r])) := by
  have hhost := h.withHost_inv
  rcases word_cases s.cfg w with ⟨a, hstep, -⟩ | ⟨hstep, -⟩ | ⟨r, -, hstep, -⟩
  · exact ⟨_, _, hstep s h rfl, h.respond_inv a, rfl, rfl, fun ins outs => hstep _ (hhost ins outs) rfl⟩
  · exact ⟨_, _, hstep s h rfl, h.resetWrites_inv.respond_inv _, rfl, rfl,
      fun ins outs => hstep _ (hhost ins outs) rfl⟩
  · obtain ⟨out, hout, hcycle⟩ := h.feedCycle_eq (symbolOperand r.1) (symbolOperand r.2)
    refine ⟨_, _, (hstep s h rfl).trans (congrArg Host.Outcome.next hcycle), (h.feedWrites_inv _ _).respond_inv _,
      rfl, rfl, fun ins outs => ?_⟩
    exact (hstep _ (hhost ins outs) rfl).trans
      (congrArg Host.Outcome.next (feedCycle_of_feedOutput_some (s := s.withHost ins outs) hout _ _))

/-- Settles O12: the word is presented to the state with the rest of the stream. -/
theorem everyPresentedCommandCompletes : Obligations.EveryPresentedCommandCompletes := by
  intro s w rest h hin
  obtain ⟨t, r, hstep, ht, hrest, hout, -⟩ := (h.withInput_inv rest).step_completes w
  rw [← eq_present_of_input hin] at hstep
  exact ⟨t, r, hstep, hrest, hout, ht.noFault⟩

/-- Every run of commands completes, and does and answers the same whatever the host's stream and the answers before
it (R160, R231). -/
theorem State.Inv.run_completes : ∀ (ws : List Word) {s : State}, s.Inv →
    ∃ t rs, runCommands s ws = .next t ∧ t.output = s.output ++ rs ∧
      ∀ ins outs, runCommands (s.withHost ins outs) ws = .next (t.withHost ins (outs ++ rs))
  | [], s, _ => ⟨s, [], rfl, by simp, fun ins outs => by simp [runCommands]⟩
  | w :: ws, s, h => by
    obtain ⟨a, r, hstep, ha, -, haout, hhost⟩ := h.step_completes w
    obtain ⟨t, rs, hrun, hout, hruns⟩ := State.Inv.run_completes ws ha
    refine ⟨t, r :: rs, runCommands_cons hstep ▸ hrun, by simp [hout, haout], fun ins outs => ?_⟩
    rw [runCommands_cons (hhost ins outs), hruns]
    simp

/-- A NOP, an illegal word and a rejected FEED only answer (R101, R165, R166). -/
theorem step_of_command_without_effect {s : State} {w : Word} (hv : configValid s.cfg = true)
    (hw : decode w = .nop ∨ decode w = .illegal w ∨
      ∃ r0 r1, decode w = .feed r0 r1 ∧ symbolsInRange s.cfg r0 r1 = false) :
    ∃ a, step (present w s) = .next (s.respond a) := by
  rw [step_present w hv]
  rcases hw with hd | hd | ⟨r0, r1, hd, hr⟩ <;> rw [hd]
  · exact ⟨_, rfl⟩
  · exact ⟨_, congrArg Host.Outcome.next (raise_illegalCommand s)⟩
  · exact ⟨_, (execFeed_rejects hr).trans (congrArg Host.Outcome.next (raise_invalidSymbol s))⟩

/-- Settles O42: after the command only the answers given differ. -/
theorem commandsWithoutEffectAreTransparent : Obligations.CommandsWithoutEffectAreTransparent := by
  intro s w ws h hw
  obtain ⟨a, hstep⟩ := step_of_command_without_effect h.config hw
  obtain ⟨t, rs, hrun, hout, hruns⟩ := h.run_completes ws
  refine ⟨t, _, responseWord a, rs, hrun, hout, (runCommands_cons hstep).trans (hruns s.input _), ?_⟩
  exact List.append_assoc s.output [responseWord a] rs

/-- RESET makes a built decoder of what meets the invariant, but for the host's stream and the answers given (R164,
R220). -/
theorem State.Inv.step_reset {s : State} (h : s.Inv) :
    step (present 0x00000002#32 s) =
      .next ((builtState s.cfg).withHost s.input (s.output ++ [0x00000000#32])) := by
  rw [step_present _ h.config, decode_reset_word]
  change Host.Outcome.next ((resetWrites s).respond (okResponse none)) = _
  simp [resetWrites, State.respond, builtState, State.withHost, h.tables, h.noFault]

/-- Settles O43: the run after RESET is that of a built decoder with other answers given. -/
theorem resetForgetsEverythingBefore : Obligations.ResetForgetsEverythingBefore := by
  intro s ws h
  obtain ⟨u, rs, hrun, hout, hruns⟩ := (builtState_inv h.config).run_completes ws
  rw [builtState_output, List.nil_append] at hout
  subst hout
  refine ⟨_, u, (runCommands_cons h.step_reset).trans (hruns _ _), hrun, ?_, rfl⟩
  exact List.append_assoc s.output [0x00000000#32] u.output

end Sys2Proof.Machine
end

section
/-! A ring that is turned by some slots, with its cursor, answers the same (R27, R169). -/

namespace Sys2Proof.Machine

/-! ## The turned ring -/

/-- The memory `sm'` holds the slots of `sm` turned by `j` places around the ring. -/
structure TurnedMemory (c : Cfg) (j : Nat) (sm sm' : Memory) : Prop where
  shape : smWf c sm' = true
  reads : ∀ i < c.D, ∀ d, smRead sm' ((i + j) % c.D) d = smRead sm i d

/-- The decoder `u` with the memory `sm'` and its cursor turned by `j` slots. -/
def State.turned (u : State) (j : Nat) (sm' : Memory) : State :=
  { u with sm := sm', wptr := (u.wptr + j) % u.cfg.D }

/-- Going back one slot commutes with turning the ring (R141). -/
theorem prevSlot_turned (depth i j : Nat) (h : 0 < depth) :
    prevSlot depth ((i + j) % depth) = (prevSlot depth i + j) % depth := by
  rw [prevSlot, prevSlot, Nat.add_sub_assoc h, Nat.mod_add_mod, Nat.mod_add_mod, Nat.add_sub_assoc h,
    Nat.add_right_comm]

/-- Going on by one slot commutes with turning the ring (R27). -/
theorem nextCursor_turned (depth i j : Nat) :
    nextCursor depth ((i + j) % depth) = (nextCursor depth i + j) % depth := by
  rw [nextCursor, nextCursor, Nat.mod_add_mod, Nat.mod_add_mod, Nat.add_right_comm]

/-- Turning the ring keeps different slots apart. -/
theorem eq_of_turned_eq {depth i k j : Nat} (hi : i < depth) (hk : k < depth)
    (h : (i + j) % depth = (k + j) % depth) : i = k :=
  (Nat.ModEq.add_right_cancel' j h).eq_of_lt_of_lt hi hk

section
variable {c : Cfg} {j : Nat} {sm sm' : Memory} (h : TurnedMemory c j sm sm')
include h

/-- A walk over the turned memory, from the turned slot, reads the same entries (R141). -/
theorem TurnedMemory.walkBack_eq (hD : 0 < c.D) : ∀ n i d,
    walkBack c.D sm' n ((i + j) % c.D) d = walkBack c.D sm n i d
  | 0, i, d => by
    rw [walkBack, walkBack, prevSlot_turned _ _ _ hD, h.reads _ (prevSlot_lt hD i)]
  | n + 1, i, d => by
    rw [walkBack, walkBack, prevSlot_turned _ _ _ hD, h.reads _ (prevSlot_lt hD i)]
    cases smRead sm (prevSlot c.D i) d with
    | none => rfl
    | some e => exact TurnedMemory.walkBack_eq hD n _ e.pred

/-- Recording the same row at the turned slot keeps the memory turned (R140). -/
theorem TurnedMemory.record {w : Nat} {row : List Survivor} (hw : w < c.D) (hsm : smWf c sm = true)
    (hrow : row.length = c.N) : TurnedMemory c j (smRecord sm w row) (smRecord sm' ((w + j) % c.D) row) where
  shape := smWf_record _ _ _ _ h.shape hrow
  reads := fun i hi d => by
    have hlen := ((smWf_iff _ _).mp hsm).1
    have hlen' := ((smWf_iff _ _).mp h.shape).1
    by_cases hiw : i = w
    · have hturned : (w + j) % c.D < sm'.length := hlen'.symm ▸ Nat.mod_lt _ hw.pos
      rw [hiw, smRead_record_self _ _ _ _ hturned, smRead_record_self _ _ _ _ (hlen ▸ hw)]
    · rw [smRead_record_other _ _ _ _ _ fun heq => hiw (eq_of_turned_eq hi hw heq),
        smRead_record_other _ _ _ _ _ hiw, h.reads i hi]

end

/-- The reset memory is the same however it is turned (R37). -/
theorem turnedMemory_reset (c : Cfg) (j : Nat) : TurnedMemory c j (resetSM c) (resetSM c) where
  shape := smWf_reset c
  reads := fun i _ d => by rw [smRead_reset, smRead_reset]

/-! ## What a decoder with a turned ring answers (R169) -/

section
variable {u : State} {j : Nat} {sm' : Memory} (h : u.Inv) (hturn : TurnedMemory u.cfg j u.sm sm')
include h hturn

/-- A decoder with a turned ring is still shaped (R41). -/
theorem State.Inv.turned_shaped : (u.turned j sm').shaped = true := by
  obtain ⟨hout, hpm, -, -, hw⟩ := (shaped_iff u).mp h.shaped
  obtain ⟨hlen, hrows⟩ := (smWf_iff _ _).mp hturn.shape
  exact (shaped_iff _).mpr ⟨hout, hpm, hlen, hrows, Nat.mod_lt _ hw.pos⟩

/-- FEED's result is the same (R143). -/
theorem State.Inv.feedOutput_turned : feedOutput (u.turned j sm') = feedOutput u := by
  have htrace : traceback (u.turned j sm') = traceback u := hturn.walkBack_eq h.cursor.pos _ _ _
  rw [feedOutput, feedOutput, htrace]
  rfl

/-- A FEED cycle writes and answers the same, with the ring turned (R161). -/
theorem State.Inv.feedCycle_turned (r0 r1 : Nat) :
    ∃ sm'', TurnedMemory u.cfg j (feedCycle u r0 r1).sm sm'' ∧
      feedCycle (u.turned j sm') r0 r1 = (feedCycle u r0 r1).turned j sm'' := by
  obtain ⟨out, hout, hcycle⟩ := h.feedCycle_eq r0 r1
  refine ⟨smRecord sm' ((u.wptr + j) % u.cfg.D) (survivors (feedSelections u r0 r1)), ?_, ?_⟩
  · rw [hcycle]
    exact hturn.record h.cursor h.memory (by simp)
  · have hcursor := nextCursor_turned u.cfg.D u.wptr j
    rw [feedCycle_of_feedOutput_some ((h.feedOutput_turned hturn).trans hout), hcycle]
    simp only [feedWrites, State.turned, State.respond, hcursor]
    rfl

/-- Every command does and answers the same, with the ring turned; RESET turns it back (R160, R164, R169). -/
theorem State.Inv.step_turned (w : Word) :
    ∃ t j' sm'', step (present w u) = .next t ∧ t.Inv ∧ TurnedMemory t.cfg j' t.sm sm'' ∧
      step (present w (u.turned j sm')) = .next (t.turned j' sm'') := by
  rw [step_present w h.config, step_present w (s := u.turned j sm') h.config]
  cases decode w with
  | nop => exact ⟨_, j, sm', rfl, h.respond_inv _, hturn, rfl⟩
  | reset =>
    refine ⟨_, 0, resetSM u.cfg, rfl, h.resetWrites_inv.respond_inv _, turnedMemory_reset u.cfg 0, ?_⟩
    simp [exec, execReset, resetWrites, State.turned, State.respond]
  | illegal v => exact ⟨_, j, sm', rfl, raise_illegalCommand u ▸ h.respond_inv _, hturn, rfl⟩
  | feed r0 r1 =>
    cases hr : symbolsInRange u.cfg r0 r1 with
    | false =>
      exact ⟨_, j, sm', execFeed_rejects hr, raise_invalidSymbol u ▸ h.respond_inv _, hturn,
        execFeed_rejects (s := u.turned j sm') hr⟩
    | true =>
      obtain ⟨hinv, hcfg, -, -⟩ := h.feedCycle_effect (symbolOperand r0) (symbolOperand r1)
      obtain ⟨sm'', hturn', hcycle⟩ := h.feedCycle_turned hturn (symbolOperand r0) (symbolOperand r1)
      refine ⟨_, j, sm'', execFeed_next hr h.shaped, hinv, hcfg ▸ hturn', ?_⟩
      rw [← hcycle]
      exact execFeed_next hr (h.turned_shaped hturn)

end

/-- Every run of commands answers the same on a turned ring. -/
theorem State.Inv.run_turned : ∀ (ws : List Word) {u : State} {j : Nat} {sm' : Memory}, u.Inv →
    TurnedMemory u.cfg j u.sm sm' →
    ∃ t v, runCommands (u.turned j sm') ws = .next t ∧ runCommands u ws = .next v ∧ t.output = v.output
  | [], u, j, sm', _, _ => ⟨u.turned j sm', u, rfl, rfl, rfl⟩
  | w :: ws, _, _, _, h, hturn => by
    obtain ⟨t, j', sm'', hstep, ht, hturn', hstep'⟩ := h.step_turned hturn w
    rw [runCommands_cons hstep, runCommands_cons hstep']
    exact State.Inv.run_turned ws ht hturn'

/-- Settles O44: a start value of WPTR is a turn of the ring of the built decoder, whose memory is all bottom. -/
theorem startingCursorIsUnobservable : Obligations.StartingCursorIsUnobservable := by
  intro c j ws hc hj
  have hstart : { builtState c with wptr := j } = (builtState c).turned j (resetSM c) := by
    simp [State.turned, builtState, Nat.mod_eq_of_lt hj]
  rw [hstart]
  exact (builtState_inv hc).run_turned ws (turnedMemory_reset c j)

end Sys2Proof.Machine
end

section
/-! Runs of legal commands with legal symbols (R174). -/

namespace Sys2Proof.Machine

/-- The word decodes to a command other than ILLEGAL, with symbols in range if it is a FEED (R101, R174). -/
def LegalCommand (c : Cfg) (w : Word) : Prop :=
  decode w = .nop ∨ decode w = .reset ∨ ∃ r0 r1, decode w = .feed r0 r1 ∧ symbolsInRange c r0 r1 = true

/-- A decoder whose `n` responses so far are all free of errors (R62, R174). -/
structure GoodSoFar (c : Cfg) (n : Nat) (s : State) : Prop where
  inv : s.Inv
  cfg : s.cfg = c
  responses : s.output.length = n
  noErrors : ∀ r ∈ s.output, errOf r = 0b00#2

theorem builtState_goodSoFar {c : Cfg} (hc : configValid c = true) : GoodSoFar c 0 (builtState c) :=
  ⟨builtState_inv hc, rfl, rfl, fun _ hr => absurd hr List.not_mem_nil⟩

/-- A command that completes without an error keeps the run good (R62, R160). -/
theorem GoodSoFar.afterAnswer {c : Cfg} {n : Nat} {s t : State} (h : GoodSoFar c n s) (out : Option Bool)
    (ht : t.Inv) (hcfg : t.cfg = s.cfg) (hout : t.output = s.output ++ [responseWord (okResponse out)]) :
    GoodSoFar c (n + 1) t where
  inv := ht
  cfg := hcfg.trans h.cfg
  responses := by simp [hout, h.responses]
  noErrors := fun r hr => by
    rw [hout, List.mem_append, List.mem_singleton] at hr
    rcases hr with hr | rfl
    · exact h.noErrors r hr
    · obtain ⟨-, -, herr, -⟩ := responseWord_fields (okResponse out)
      cases out <;> exact herr

/-- Every legal command completes and keeps the run good (R161, R164, R165). -/
theorem GoodSoFar.step_completes {c : Cfg} {n : Nat} {s : State} (h : GoodSoFar c n s) {w : Word}
    (hw : LegalCommand c w) : ∃ t, step (present w s) = .next t ∧ GoodSoFar c (n + 1) t := by
  rw [step_present w h.inv.config]
  rcases hw with hd | hd | ⟨r0, r1, hd, hr⟩ <;> rw [hd]
  · exact ⟨_, rfl, h.afterAnswer none (h.inv.respond_inv _) rfl rfl⟩
  · exact ⟨_, rfl, h.afterAnswer none (h.inv.resetWrites_inv.respond_inv _) rfl rfl⟩
  · obtain ⟨out, -, hcycle⟩ := h.inv.feedCycle_eq (symbolOperand r0) (symbolOperand r1)
    obtain ⟨hinv, hcfg, -, -⟩ := h.inv.feedCycle_effect (symbolOperand r0) (symbolOperand r1)
    refine ⟨_, execFeed_next (h.cfg ▸ hr) h.inv.shaped, h.afterAnswer out hinv hcfg ?_⟩
    rw [hcycle, respond_output, feedWrites_output]

/-- Every run of legal commands completes and is good, with one response a command (R160, R174). -/
theorem GoodSoFar.run {c : Cfg} : ∀ {ws : List Word} {n : Nat} {s : State}, GoodSoFar c n s →
    (∀ w ∈ ws, LegalCommand c w) → ∃ t, runCommands s ws = .next t ∧ GoodSoFar c (n + ws.length) t
  | [], _, s, h, _ => ⟨s, rfl, h⟩
  | w :: ws, n, s, h, hws => by
    obtain ⟨hw, hws⟩ := List.forall_mem_cons.mp hws
    obtain ⟨a, hstep, ha⟩ := h.step_completes hw
    rw [runCommands_cons hstep, List.length_cons, Nat.add_comm ws.length, ← Nat.add_assoc]
    exact GoodSoFar.run ha hws

/-- A run without errors is good in R174's sense, with no place where an error is expected. -/
theorem GoodSoFar.goodRun_nil {c : Cfg} {n : Nat} {s : State} (h : GoodSoFar c n s) : goodRun [] s = true := by
  have hall : ∀ p ∈ s.output.zipIdx, errOf p.1 = 0b00#2 := fun p hp =>
    h.noErrors p.1 (List.fst_mem_of_mem_zipIdx hp)
  simp only [goodRun, h.inv.noFault, Bool.not_false, Bool.true_and, List.all_eq_true]
  exact fun p hp => by simp [hall p hp]

/-- Settles O51: a built decoder has given no response, and every legal command adds one without an error. -/
theorem runsOfLegalCommandsAreGood : Obligations.RunsOfLegalCommandsAreGood := by
  intro c ws hc hws
  obtain ⟨t, hrun, ht⟩ := (builtState_goodSoFar hc).run hws
  exact ⟨t, hrun, ht.goodRun_nil, ht.responses.trans (Nat.zero_add _)⟩

end Sys2Proof.Machine
end

section
/-! Errors (R204, R206), and steps without a word or without an instance (R202, R216). -/

namespace Sys2Proof.Machine

/-! ## Decode errors and symbol errors (R204, R206) -/

/-- A word that breaks a field condition of R65 decodes to ILLEGAL. -/
theorem decode_illegal_of_fields {w : Word}
    (h : 3 ≤ (opc w).toNat ∨ rsv0 w ≠ 0#4 ∨ rsv1 w ≠ 0#8 ∨ (opc w ≠ 0x1#4 ∧ (sym0 w ≠ 0#8 ∨ sym1 w ≠ 0#8))) :
    decode w = .illegal w := by
  have hpat : ¬(w = 0x00000000#32 ∨ w &&& 0xFF0000FF#32 = 0x00000001#32 ∨ w = 0x00000002#32) := by
    rw [legalPattern_iff_fields]
    rintro ⟨hop, h0, h1, hs⟩
    rcases h with hop3 | hne | hne | ⟨hop1, hsym⟩
    · rcases hop with ho | ho | ho <;> exact absurd hop3 (ho ▸ by decide)
    · exact hne h0
    · exact hne h1
    · obtain ⟨hs0, hs1⟩ := hs hop1
      exact hsym.elim (absurd hs0) (absurd hs1)
  exact decode_eq_illegal_iff.mpr ⟨rfl, by simpa only [not_or] using hpat⟩

/-- Only FEED answers INVALID_SYMBOL: NOP and RESET answer OK, and ILLEGAL its own code (R164 to R166, R203). -/
theorem feed_of_errOf_invalidSymbol {i : Instr} {s t : State} {r : Word} (h : exec i s = .next t)
    (hout : t.output = s.output ++ [r]) (herr : errOf r = 0b01#2) : ∃ r0 r1, i = .feed r0 r1 := by
  have answer {a : Word} (ha : t.output = s.output ++ [a]) : errOf a = 0b01#2 := by
    obtain rfl : a = r := by simpa using ha.symm.trans hout
    exact herr
  rcases exec_cases h with ⟨-, rfl⟩ | ⟨r0, r1, hi, -⟩ | ⟨-, rfl⟩ | ⟨w, -, rfl⟩
  · exact absurd (answer (respond_output s _)) (by decide)
  · exact ⟨r0, r1, hi⟩
  · exact absurd (answer (respond_output (resetWrites s) _)) (by decide)
  · exact absurd (answer (a := responseWord (errorResponse .illegalCommand)) (raise_output s _)) (by decide)

/-- Settles O36: a word that breaks a field condition runs as ILLEGAL before any symbol is looked at, a FEED word
runs the symbol check first, and a response with an error has no bit. -/
theorem errorsAreReportedDecodeFirstAndOnce : Obligations.ErrorsAreReportedDecodeFirstAndOnce := by
  refine ⟨fun s w hv hfields => ?_, fun s w hv hop h0 h1 hsym => ?_, fun i s t h => ?_⟩
  · rw [step_present w hv, decode_illegal_of_fields hfields, illegalChangesNoState]
  · rw [step_present w hv, decode_of_feedPattern ((feedPattern_iff w).mpr ⟨hop, h0, h1⟩)]
    have hpos : 0 < 2 ^ s.cfg.B := Nat.two_pow_pos _
    exact feedRejectsSymbolsAboveTheMaximum s _ _ (by omega)
  · obtain ⟨r, hout, -, -, hnobit, -⟩ := everyResponseWordHasTheFieldsOfTheEncoding i s t h
    refine ⟨r, hout, feed_of_errOf_invalidSymbol h hout, fun ⟨herr, hvalid⟩ => ?_⟩
    exact absurd ((hnobit herr).1.symm.trans hvalid) Bool.false_ne_true

/-! ## Steps that perform no command (R202, R216) -/

/-- Settles O10: no word is presented, so the state is held. -/
theorem stepWithoutCommandHoldsTheState : Obligations.StepWithoutCommandHoldsTheState := by
  intro s hv hin
  simp [step, acceptsCommands, presented, hv, hin]

/-- Settles O11: without an instance no command is accepted. -/
theorem noStepWithoutAValidConfiguration : Obligations.NoStepWithoutAValidConfiguration := by
  intro s hv
  simp [step, acceptsCommands, hv]

end Sys2Proof.Machine
end
